-- ==== Sys2Proof/Word.lean ====
section
/-! DEFINITION. The widths of the block: byte, group and word (rules R5 and R6 of `00_scope.md`). Every quantity is
unsigned (rule R126). -/

namespace Sys2Proof

/-- A byte or a character code, 8 bits (`BYTE_BITS`, rule R5). -/
abbrev Byte := BitVec 8

/-- One Base32 group, 5 bits (`GROUP_BITS`, rule R5). -/
abbrev Group := BitVec 5

/-- A register value or a command word, 32 bits (`WORD_BITS`, rule R5). -/
abbrev Word := BitVec 32

end Sys2Proof
end

