-- ==== Sys2Proof/Config.lean ====
section
/-! DEFINITION. The parameters of rule R5 (`00_scope.md`) and the free values the spec leaves open (rules R17, R26 and
R175; U1, U2 and U3 of `93_implementation_defined.md`). -/

namespace Sys2Proof

/-- The OPEN parameters of rule R5: `BASE`, `N_IN` and `N_OUT` (U11). A state carries them in its field `cfg`, and no
step changes them (log 7). -/
structure Config where
  /-- `BASE`, the byte address of the block in the host's address space -/
  base : Nat
  /-- `N_IN`, the bytes of the input buffer -/
  nIn : Nat
  /-- `N_OUT`, the bytes of the output buffer -/
  nOut : Nat
deriving DecidableEq, Repr

/-- The ranges and the constraint of rule R5, with `8*ceil(N_IN/5)` written `8 * ((nIn + 4) / 5)`. -/
abbrev Config.Legal (c : Config) : Prop :=
  c.base % 4096 = 0 ∧ 20 ≤ c.nIn ∧ c.nIn ≤ 1024 ∧ max 15 (8 * ((c.nIn + 4) / 5)) ≤ c.nOut ∧ c.nOut ≤ 2048

/-- The spec's defaults `N_IN = 320` and `N_OUT = 512` (rule R5). `BASE` has no default there: 0 is a
DESIGN CHOICE (log 7). -/
def Config.default : Config := { base := 0, nIn := 320, nOut := 512 }

/-- A FREE VALUE: what the buffer byte at window offset `off` reads as while the spec leaves it unspecified, on draw
number `draw`. It has no body on purpose (log 4, log 5, log 6). -/
opaque Config.freeByte (draw off : Nat) : Byte

/-- A FREE VALUE: what the register at window offset `off` holds after the reset of draw number `draw`, where rule R26
says "unspecified". It has no body on purpose (log 3, log 6). -/
opaque Config.freeWord (draw off : Nat) : Word

end Sys2Proof
end

