-- ==== Sys2Proof/Syntax.lean ====
section
/-! DEFINITION. The six commands (rule R62 of `30_encoding.md`), the host's steps (rule R40 of `20_memory.md`) and the
host script statements (rules R66 and R67 of `30_encoding.md`). -/

namespace Sys2Proof

/-- The six commands of rule R62, one constructor per row of the opcode table. `l` is the code length of rule R63, the
number written after `HTRUNC` in rule R66. -/
inductive Instr where
  | b32encc
  | b32decc
  | b32enc
  | b32dec
  | ctrser
  | htrunc (l : Nat)
deriving DecidableEq, Repr

/-- The registers of rule R43. `cmd` holds no value (rule R13). -/
inductive Reg where
  | cmd
  | status
  | ilen
  | olen
  | ctrLo
  | ctrHi
  | offset
  | trunc
  | code
deriving DecidableEq, Repr

/-- One step of the host: the two primitives of rule R40 and the reset event of rule R170. `n` is the width in bytes;
`v` is the data word of a write, of which a 1-byte write uses the low byte (log 10). -/
inductive HostStep where
  /-- `MemRead(addr, n)` -/
  | memRead (addr n : Nat)
  /-- `MemWrite(addr, n, v)` -/
  | memWrite (addr n : Nat) (v : Word)
  /-- the reset event -/
  | reset
deriving DecidableEq, Repr

/-- The statements of rule R66 and the pseudo-statements of rule R67. -/
inductive Stmt where
  /-- `WR reg, v` -/
  | wr (reg : Reg) (v : Word)
  /-- `RD reg` -/
  | rd (reg : Reg)
  /-- `WRB IBUF+i, b` -/
  | wrb (i : Nat) (b : Byte)
  /-- `RDB IBUF+i` -/
  | rdbIbuf (i : Nat)
  /-- `RDB OBUF+i` -/
  | rdbObuf (i : Nat)
  /-- a command's mnemonic, with its `L` after `HTRUNC` -/
  | command (i : Instr)
  /-- `RESET` -/
  | reset
  /-- `LOADB b0 b1 ...` -/
  | loadb (bytes : List Byte)
  /-- `LOADS "text"`, the characters of the text -/
  | loads (text : List Char)
  /-- `LOADCTR v` -/
  | loadctr (v : BitVec 64)
  /-- `COPYOUT` -/
  | copyout
  /-- `CHECK reg == v` -/
  | checkReg (reg : Reg) (v : Word)
  /-- `CHECK OBUF == b0 b1 ...` -/
  | checkObuf (bytes : List Byte)
deriving DecidableEq, Repr

end Sys2Proof
end

