-- ==== Sys2Proof/WellFormed.lean ====
section
/-! DEFINITION. What may be written: the code length of a command (rules R63 and R66 of `30_encoding.md`) and the bounds
of the script statements (rules R66 and R67). -/

namespace Sys2Proof

/-- "an `L` outside 0..15 is an assembly error, not a command" (rule R66). The other five commands have no operand. -/
def Instr.wf : Instr → Bool
  | .b32encc => true
  | .b32decc => true
  | .b32enc => true
  | .b32dec => true
  | .ctrser => true
  | .htrunc l => decide (l ≤ 15)

/-- The check of `Instr.wf` as a proposition. -/
abbrev Instr.WellFormed (i : Instr) : Prop := i.wf = true

/-- The bounds of rules R66 and R67 on a statement: a buffer index lies in its buffer (rule R43), `n <= N_IN` bytes are
loaded, and a character of a text has an 8-bit code (rule R6). A `WR` to a read-only register is legal and ignored.
That `COPYOUT` requires `OLEN <= N_IN` is no bound on what is written, so it is not checked here (log 19).
DESIGN CHOICE (log 20): a `CHECK OBUF` that lists more than `N_OUT` bytes is ill-formed. Rule R67 gives it no bound; its
comparison could only fail. -/
def Stmt.wf (c : Config) : Stmt → Bool
  | .wr _ _ => true
  | .rd _ => true
  | .wrb i _ => decide (i < c.nIn)
  | .rdbIbuf i => decide (i < c.nIn)
  | .rdbObuf i => decide (i < c.nOut)
  | .command i => i.wf
  | .reset => true
  | .loadb bytes => decide (bytes.length ≤ c.nIn)
  | .loads text => decide (text.length ≤ c.nIn) && text.all fun ch => decide (ch.toNat < 256)
  | .loadctr _ => true
  | .copyout => true
  | .checkReg _ _ => true
  | .checkObuf bytes => decide (bytes.length ≤ c.nOut)

end Sys2Proof
end

