-- ==== Sys2Proof/Decode.lean ====
section
/-! DEFINITION. Decoding a command word, total on the 2^32 words (rule R70 of `30_encoding.md`), the encoder written from
the same tables (rules R60 to R63), and the opcode table's rows (rule R62). -/

namespace Sys2Proof

/-- Why a word is illegal (rule R64). The block records nothing of it: every such word raises `IllegalCommand`, so the
names are the model's own (log 15). -/
inductive IllegalWord where
  /-- a non-zero bit in 31:12 -/
  | reservedBits
  /-- an N-format opcode with `ARG != 0` -/
  | argumentNotZero
  /-- an unassigned opcode -/
  | unassignedOpcode
deriving DecidableEq, Repr

/-- What rule R70 makes of a word. -/
inductive Decoded where
  | command (i : Instr)
  | illegal (why : IllegalWord)
deriving DecidableEq, Repr

/-- The field `OPC`, bits 7:0 (rule R60). -/
def opcOf (w : Word) : BitVec 8 := w.extractLsb' 0 8

/-- The field `ARG`, bits 11:8 (rule R60). -/
def argOf (w : Word) : BitVec 4 := w.extractLsb' 8 4

/-- The field `RSV`, bits 31:12 (rule R60). -/
def rsvOf (w : Word) : BitVec 20 := w.extractLsb' 12 20

/-- A format-N opcode: `ARG` must be 0 (rule R61). -/
def decodeFormatN (w : Word) (i : Instr) : Decoded :=
  if argOf w = 0#4 then .command i else .illegal .argumentNotZero

/-- `decode(w)` of rule R70, case by case. -/
def decode (w : Word) : Decoded :=
  if rsvOf w ≠ 0#20 then .illegal .reservedBits
  else if opcOf w = 0x10#8 then decodeFormatN w .b32encc
  else if opcOf w = 0x11#8 then decodeFormatN w .b32decc
  else if opcOf w = 0x12#8 then decodeFormatN w .b32enc
  else if opcOf w = 0x13#8 then decodeFormatN w .b32dec
  else if opcOf w = 0x20#8 then decodeFormatN w .ctrser
  else if opcOf w = 0x21#8 then .command (.htrunc (argOf w).toNat)
  else .illegal .unassignedOpcode

/-- The three fields of rule R60 put together, `RSV` in the most significant place. -/
def packFields (rsv : BitVec 20) (arg : BitVec 4) (opc : BitVec 8) : Word := rsv ++ arg ++ opc

/-- The command word of a well-formed command (rules R61 and R62; for `HTRUNC` it is `0x00000021 + 0x100 * L`). -/
def encode : Instr → Word
  | .b32encc => packFields 0#20 0#4 0x10#8
  | .b32decc => packFields 0#20 0#4 0x11#8
  | .b32enc => packFields 0#20 0#4 0x12#8
  | .b32dec => packFields 0#20 0#4 0x13#8
  | .ctrser => packFields 0#20 0#4 0x20#8
  | .htrunc l => packFields 0#20 (BitVec.ofNat 4 l) 0x21#8

/-- The `match` column of rule R62. -/
def Instr.matchWord : Instr → Word
  | .b32encc => 0x00000010#32
  | .b32decc => 0x00000011#32
  | .b32enc => 0x00000012#32
  | .b32dec => 0x00000013#32
  | .ctrser => 0x00000020#32
  | .htrunc _ => 0x00000021#32

/-- The `mask` column of rule R62. -/
def Instr.maskWord : Instr → Word
  | .b32encc => 0xFFFFFFFF#32
  | .b32decc => 0xFFFFFFFF#32
  | .b32enc => 0xFFFFFFFF#32
  | .b32dec => 0xFFFFFFFF#32
  | .ctrser => 0xFFFFFFFF#32
  | .htrunc _ => 0xFFFFF0FF#32

/-- The command word that the low `nbits` bits of `w` make: every bit above them is 0 (log 12). -/
def tableWord (nbits w : Nat) : Word := BitVec.ofNat 32 (w % 2 ^ nbits)

/-- The command the decoder reads from a table word; none where the word is illegal. A command is one 32-bit word
(rule R60), so the table's bit numbers are the word's own. -/
def decodeTableWord (nbits w : Nat) : Option Instr :=
  match decode (tableWord nbits w) with
  | .command i => some i
  | .illegal _ => none

end Sys2Proof
end

