-- ==== Sys2Proof/Machine/State.lean ====
section
/-! DEFINITION. The architectural state of the block (rule R10 of `10_state.md`), what a step can stop with, and the
state after reset (rule R26). -/

namespace Sys2Proof.Machine

/-- What stops the machine. The block itself has "no trap, hang or stuck state" (rule R8), and no command raises one of
these: the four error causes of a command are next states (`CommandError`). -/
inductive Fault where
  /-- Raised by a host access whose address lies outside `BASE .. BASE + 0xFFF`: no such address exists in the block's
  address space (rules R40 and R43). Safe: the model stops where the platform does something of its own (log 8). -/
  | outsideWindow
deriving DecidableEq, Repr

/-- What the model gives no meaning to. Each but `notModelled` is an access that the spec leaves to the platform. -/
inductive Refusal where
  /-- An instruction that has no meaning yet, by its mnemonic. No arm answers it. Safe: the model stops. -/
  | notModelled (mnemonic : String)
  /-- Raised by a host access to a reserved offset: "A model refuses it" (rule R48, U4). Safe: the model stops (log 9). -/
  | reservedOffset
  /-- Raised by a register access that is not one aligned 4-byte access, or a buffer access that is not a 1-byte access:
  "a model refuses them" (rule R44, U5). Safe: the model stops (log 9). -/
  | undefinedAccess
deriving DecidableEq, Repr

/-- The error causes of rule R140 (`60_exceptions.md`). -/
inductive CommandError where
  /-- rule R141, code 1 -/
  | invalidCharacter
  /-- rule R142, code 2 -/
  | invalidPadding
  /-- rule R143, code 3 -/
  | operandLength
  /-- rule R144, code 4 -/
  | illegalCommand
deriving DecidableEq, Repr

/-- A buffer: the bytes that have a defined value, as index and byte, indices strictly rising. An unlisted byte has no
value of its own: the spec calls it unspecified, and it reads as a free value (log 4, log 5). -/
abbrev Memory := List Host.Cell

/-- The whole machine: the registers and buffers of rule R10, then the model's own fields. -/
structure State where
  /-- `STATUS` (rule R14) -/
  status : Word
  /-- `ILEN` (rule R15) -/
  ilen : BitVec 16
  /-- `OLEN` (rule R18) -/
  olen : BitVec 16
  /-- `CTR_LO` (rule R19) -/
  ctrLo : Word
  /-- `CTR_HI` (rule R19) -/
  ctrHi : Word
  /-- `OFFSET` (rule R20) -/
  offset : BitVec 4
  /-- `TRUNC` (rule R21) -/
  trunc : BitVec 31
  /-- `CODE` (rules R10 and R22) -/
  code : BitVec 31
  /-- `IBUF` (rule R16) -/
  ibuf : Memory
  /-- `OBUF` (rule R17) -/
  obuf : Memory
  /-- model: `BASE`, `N_IN`, `N_OUT` (rule R5); no step changes it -/
  cfg : Config
  /-- model: how many free values have been drawn (log 6) -/
  draws : Nat
  /-- model: what the host does next, in the total order of rule R50 (log 1) -/
  script : List HostStep
  /-- model: what the host's reads have returned, newest first (log 11) -/
  received : List Word
deriving DecidableEq, Repr

/-- The state after a reset of a block with parameters `c` (rule R26), its unspecified registers on draw `draw`, and a
host that has `script` to do and has received `received`. -/
def State.afterReset (c : Config) (draw : Nat) (script : List HostStep) (received : List Word) : State where
  status := 0#32
  ilen := 0#16
  olen := 0#16
  ctrLo := Config.freeWord draw 0x010
  ctrHi := Config.freeWord draw 0x014
  offset := (Config.freeWord draw 0x018).setWidth 4
  trunc := (Config.freeWord draw 0x01C).setWidth 31
  code := (Config.freeWord draw 0x020).setWidth 31
  ibuf := []
  obuf := []
  cfg := c
  draws := draw + 1
  script := script
  received := received

/-- The machine right after reset (rules R26 and R170): the default parameters, nothing for the host to do yet, nothing
received (log 3, log 7, log 12). -/
def State.reset : State := State.afterReset Config.default 0 [] []

end Sys2Proof.Machine
end

