-- ==== Sys2Proof/Machine/Flags.lean ====
section
/-! DEFINITION. The only flags of the block: the fields of `STATUS` (rules R14 and R23 of `10_state.md`) and the two ways
a command writes them (rule R71 of `30_encoding.md`, rule R146 of `60_exceptions.md`). No command reads them. -/

namespace Sys2Proof.Machine

/-- `DONE`, bit 0 of `STATUS` (rule R14). -/
def statusDone (w : Word) : Bool := w.getLsbD 0

/-- `ERR`, bit 1 of `STATUS` (rule R14). -/
def statusErr (w : Word) : Bool := w.getLsbD 1

/-- `ERRCODE`, bits 7:4 of `STATUS` (rule R14). -/
def statusErrCode (w : Word) : BitVec 4 := w.extractLsb' 4 4

/-- `code(E)`, the value recorded in `ERRCODE` (rule R140). -/
def errorCode : CommandError → BitVec 4
  | .invalidCharacter => 1#4
  | .invalidPadding => 2#4
  | .operandLength => 3#4
  | .illegalCommand => 4#4

/-- `STATUS` after a successful command: `DONE = 1, ERR = 0, ERRCODE = 0` (rule R71). -/
def statusSuccess : Word := 0x00000001#32

/-- `STATUS` after an error: `0x00000003 | (code(E) << 4)` (rule R146). -/
def statusError (e : CommandError) : Word := 0x00000003#32 ||| ((errorCode e).setWidth 32 <<< 4)

end Sys2Proof.Machine
end

