-- ==== Sys2Proof/Machine/Ops.lean ====
section
/-! DEFINITION. The operations every command and every host access is made of: the buffers (rules R16 and R17), the
registers as the host reads and writes them (rules R13 to R22, R45 and R46), the two ends of a command (`succeed`, rule
R71; `raise`, rule R146) and the reset event (rule R170). An error saves nothing and goes nowhere, so there is no
return from it to model (rules R146 and R147). -/

namespace Sys2Proof.Machine

/-! ### A buffer's bytes -/

/-- The canonical form: indices strictly rising. -/
abbrev Memory.wf (m : Memory) : Prop := (m.map Prod.fst).Pairwise (· < ·)

/-- The listed byte at `a`; none where nothing defines it. -/
def Memory.get : Memory → Nat → Option Byte
  | [], _ => none
  | (k, b) :: m, a => if k = a then some b else Memory.get m a

/-- `m` with byte `a` equal to `v`, in canonical form. -/
def Memory.put : Memory → Nat → Byte → Memory
  | [], a, v => [(a, v)]
  | (k, b) :: m, a, v =>
    if a < k then (a, v) :: (k, b) :: m
    else if a = k then (a, v) :: m
    else (k, b) :: Memory.put m a v

/-- The buffer that lists exactly `bytes`, from index `i` on (rule R49: ascending index). -/
def Memory.ofBytesFrom : Nat → List Byte → Memory
  | _, [] => []
  | i, b :: bs => (i, b) :: Memory.ofBytesFrom (i + 1) bs

/-- The buffer that lists exactly `bytes`, from index 0 on. -/
def Memory.ofBytes (bytes : List Byte) : Memory := Memory.ofBytesFrom 0 bytes

/-- The window offset of `IBUF[0]` (rule R43). -/
def ibufOffset : Nat := 0x400

/-- The window offset of `OBUF[0]` (rule R43). -/
def obufOffset : Nat := 0x800

/-- What `IBUF[i]` reads as: the byte the host wrote, or a free value where it has written none since reset
(rules R26, R45 and R175, log 4). -/
def ibufByte (s : State) (i : Nat) : Byte :=
  match Memory.get s.ibuf i with
  | some b => b
  | none => Config.freeByte s.draws (ibufOffset + i)

/-- What `OBUF[i]` reads as: the output byte, or a free value for `i >= OLEN` (rule R17, log 5). -/
def obufByte (s : State) (i : Nat) : Byte :=
  match Memory.get s.obuf i with
  | some b => b
  | none => Config.freeByte s.draws (obufOffset + i)

/-! ### The registers, as the host sees them -/

/-- A host read of a register: the whole 32-bit value, reserved bits 0 (rules R44 and R46); `CMD` reads 0 (rule R13). -/
def readReg (s : State) : Reg → Word
  | .cmd => 0#32
  | .status => s.status
  | .ilen => s.ilen.setWidth 32
  | .olen => s.olen.setWidth 32
  | .ctrLo => s.ctrLo
  | .ctrHi => s.ctrHi
  | .offset => s.offset.setWidth 32
  | .trunc => s.trunc.setWidth 32
  | .code => s.code.setWidth 32

/-- A host write of a register that only stores (rule R45): `ILEN` keeps bits 15:0 (rule R15), the counter halves keep
all (rule R19), a write of a read-only register is ignored (rule R46). A write of `CMD` stores nothing (rule R13); the
command it performs is `commandFrame`'s. -/
def writeReg (r : Reg) (v : Word) (s : State) : State :=
  match r with
  | .cmd => s
  | .status => s
  | .ilen => { s with ilen := v.setWidth 16 }
  | .olen => s
  | .ctrLo => { s with ctrLo := v }
  | .ctrHi => { s with ctrHi := v }
  | .offset => s
  | .trunc => s
  | .code => s

/-- A host write of `IBUF[i]` (rules R16 and R45). -/
def writeIbuf (i : Nat) (b : Byte) (s : State) : State :=
  { s with ibuf := Memory.put s.ibuf i b }

/-- A host read returns `v`: nothing in the block changes (rule R45). The model notes the value and moves to the next
free value, since two reads of an unspecified byte may differ (rules R17 and R45, log 6, log 11). -/
def receive (v : Word) (s : State) : State :=
  { s with received := v :: s.received, draws := s.draws + 1 }

/-! ### The two ends of a command -/

/-- The state after `succeed(out)` (rule R71): the output in `OBUF[0..]`, every other `OBUF` byte unspecified (rule R17),
`OLEN` its length, `STATUS` success. -/
def succeeded (out : List Byte) (s : State) : State :=
  { s with
    obuf := Memory.ofBytes out
    olen := BitVec.ofNat 16 out.length
    status := statusSuccess
    draws := s.draws + 1 }

/-- `succeed(out)` (rule R71). -/
def succeed (out : List Byte) (s : State) : Host.Outcome State Fault Refusal := .next (succeeded out s)

/-- The state after `raise E` (rule R146): `OLEN` 0, the cause in `STATUS`, every `OBUF` byte unspecified, all else
unchanged. -/
def raised (e : CommandError) (s : State) : State :=
  { s with
    obuf := []
    olen := 0#16
    status := statusError e
    draws := s.draws + 1 }

/-- `raise E` (rule R146): the one way a command takes an error. -/
def raise (e : CommandError) (s : State) : Host.Outcome State Fault Refusal := .next (raised e s)

/-- A command whose rule computes an output sequence or an error. -/
def finish (r : Except CommandError (List Byte)) (s : State) : Host.Outcome State Fault Refusal :=
  match r with
  | .ok out => succeed out s
  | .error e => raise e s

/-! ### Reset -/

/-- The reset event (rules R26, R170 and R171): the control registers are 0, the data registers are free values of a new
draw, no buffer byte has a defined value. The parameters and the host's own part stay (log 17). -/
def resetEvent (s : State) : State :=
  { s with
    status := 0#32
    ilen := 0#16
    olen := 0#16
    ctrLo := Config.freeWord s.draws 0x010
    ctrHi := Config.freeWord s.draws 0x014
    offset := (Config.freeWord s.draws 0x018).setWidth 4
    trunc := (Config.freeWord s.draws 0x01C).setWidth 31
    code := (Config.freeWord s.draws 0x020).setWidth 31
    ibuf := []
    obuf := []
    draws := s.draws + 1 }

end Sys2Proof.Machine
end

