-- ==== Sys2Proof/Machine/Operands.lean ====
section
/-! DEFINITION. The operands of the commands: the one implicit addressing mode (rule R49 of `20_memory.md`), the length
check (rule R143 of `60_exceptions.md`) and the counter (rule R19 of `10_state.md`). The only operand in the word, `L`,
is assembled by the decoder (rule R63). -/

namespace Sys2Proof.Machine

/-- The input sequence of a command, `IBUF[0..ILEN-1]` in ascending index (rules R15 and R49). -/
def inputBytes (s : State) : List Byte := (List.range s.ilen.toNat).map (ibufByte s)

/-- `not (ILEN > N_IN)`, the length check of the whole-sequence commands (rule R143). -/
abbrev LengthFits (s : State) : Prop := s.ilen.toNat ≤ s.cfg.nIn

/-- `not (ILEN > N_IN or ILEN != n)`, the length check of the commands that take exactly `n` bytes (rule R143). -/
abbrev LengthIs (n : Nat) (s : State) : Prop := s.ilen.toNat ≤ s.cfg.nIn ∧ s.ilen.toNat = n

/-- `C = {CTR_HI, CTR_LO}`, the 64-bit counter (rule R19). -/
def counterValue (s : State) : BitVec 64 := s.ctrHi ++ s.ctrLo

end Sys2Proof.Machine
end

