-- ==== Sys2Proof/Machine/Alphabet.lean ====
section
/-! DEFINITION. Characters, the alphabet, packing and the padding table (rules R80 to R89 of `40_base32_codec.md`). -/

namespace Sys2Proof.Machine

/-- The four character classes of rule R84. -/
inductive CharClass where
  | ws
  | data
  | pad
  | bad
deriving DecidableEq, Repr

/-- The padding symbol `=`, code `0x3D` (rule R83). -/
def padSymbol : Byte := 0x3D#8

/-- `class(c)`, total on the 256 codes (rules R84 and R85). -/
def classOf (c : Byte) : CharClass :=
  if c = 0x09#8 ∨ c = 0x0A#8 ∨ c = 0x0B#8 ∨ c = 0x0C#8 ∨ c = 0x0D#8 ∨ c = 0x20#8 then .ws
  else if (0x41#8 ≤ c ∧ c ≤ 0x5A#8) ∨ (0x32#8 ≤ c ∧ c ≤ 0x37#8) then .data
  else if c = 0x3D#8 then .pad
  else .bad

/-- `sym(g)`, group value to symbol (rule R81): `0x41 + g` for `g <= 25`, `0x18 + g` above. -/
def sym (g : Group) : Byte :=
  if g.toNat ≤ 25 then 0x41#8 + g.setWidth 8 else 0x18#8 + g.setWidth 8

/-- `val(c)`, symbol to group value (rule R82). It is applied to `DATA` characters only. -/
def val (c : Byte) : Group :=
  if 0x41#8 ≤ c ∧ c ≤ 0x5A#8 then (c - 0x41#8).setWidth 5 else (c - 0x18#8).setWidth 5

/-- The group value of a character that a decoder accepts: `val` of a data symbol, 0 for `=` (rule R83). -/
def groupOf (c : Byte) : Group := if classOf c = .data then val c else 0#5

/-- The 40-bit value of five bytes, `b[0]` most significant (rule R86). -/
def bytesValue (b : List Byte) : BitVec 40 := b.foldl (fun v x => (v <<< 8) ||| x.setWidth 40) 0#40

/-- The 40-bit value of eight groups, `g[0]` most significant (rule R87). -/
def groupsValue (g : List Group) : BitVec 40 := g.foldl (fun v x => (v <<< 5) ||| x.setWidth 40) 0#40

/-- `pack5(b)`: `g[k] = V[39-5k : 35-5k]` for `k = 0..7` (rule R86). -/
def pack5 (b : List Byte) : List Group :=
  (List.range 8).map fun k => (bytesValue b).extractLsb' (35 - 5 * k) 5

/-- `unpack8(g)`: `b[j] = V[39-8j : 32-8j]` for `j = 0..4` (rule R87). -/
def unpack8 (g : List Group) : List Byte :=
  (List.range 5).map fun j => (groupsValue g).extractLsb' (32 - 8 * j) 8

/-- `NSYM(n)`, the symbols kept of a final chunk of `n` bytes (rule R89). -/
def nsym : Nat → Nat
  | 1 => 2
  | 2 => 4
  | 3 => 5
  | 4 => 7
  | _ => 8

/-- `NBYTES(t)`, the bytes that a window of truncated length `t` yields; lengths 0, 1, 3 and 6 have none (rule R89). -/
def nbytes : Nat → Option Nat
  | 2 => some 1
  | 4 => some 2
  | 5 => some 3
  | 7 => some 4
  | 8 => some 5
  | _ => none

/-- The eight symbols of one chunk of five bytes (rules R86 and R81). -/
def chunkSymbols (b : List Byte) : List Byte := (pack5 b).map sym

/-- A final partial chunk: packed as if its trailing bytes were zero, the fully determined symbols kept, `=` for the rest
(rule R100). -/
def partialSymbols (b : List Byte) : List Byte :=
  (chunkSymbols (b ++ List.replicate (5 - b.length) 0#8)).take (nsym b.length)
    ++ List.replicate (8 - nsym b.length) padSymbol

/-- The character sequence of a byte sequence: full chunks in order, then a partial one (rule R100). -/
def encodeBytes : List Byte → List Byte
  | b0 :: b1 :: b2 :: b3 :: b4 :: rest => chunkSymbols [b0, b1, b2, b3, b4] ++ encodeBytes rest
  | [] => []
  | [b0] => partialSymbols [b0]
  | [b0, b1] => partialSymbols [b0, b1]
  | [b0, b1, b2] => partialSymbols [b0, b1, b2]
  | [b0, b1, b2, b3] => partialSymbols [b0, b1, b2, b3]

/-- The loop of `B32DECC` (rule R92): ascending, `=` is 0 anywhere, whitespace is refused like any other bad code. -/
def chunkGroups : List Byte → Except CommandError (List Group)
  | [] => .ok []
  | c :: cs =>
    match classOf c with
    | .data => (chunkGroups cs).map (val c :: ·)
    | .pad => (chunkGroups cs).map (0#5 :: ·)
    | .ws => .error .invalidCharacter
    | .bad => .error .invalidCharacter

/-- What the scan of `B32DEC` carries (rules R25 and R104): the output so far, the current window, and whether the final
window has been seen. -/
structure Scan where
  out : List Byte
  win : List Byte
  finalSeen : Bool
deriving DecidableEq, Repr

/-- `t`: the least index of a `PAD` character in the window, its length if there is none (rule R104). -/
def truncatedLength (win : List Byte) : Nat := win.findIdx fun c => decide (classOf c = .pad)

/-- A window of 8 characters is complete (rule R104): a full window yields 5 bytes; a final window must have only `=`
after its first one and a truncated length of the padding table. -/
def closeWindow (sc : Scan) (win : List Byte) : Except CommandError Scan :=
  if truncatedLength win = 8 then
    .ok { out := sc.out ++ unpack8 (win.map groupOf), win := [], finalSeen := sc.finalSeen }
  else if (win.drop (truncatedLength win + 1)).any fun c => decide (classOf c ≠ .pad) then
    .error .invalidPadding
  else
    match nbytes (truncatedLength win) with
    | none => .error .invalidPadding
    | some k => .ok { out := sc.out ++ (unpack8 (win.map groupOf)).take k, win := [], finalSeen := true }

/-- A `DATA` or `PAD` character of the scan (rule R104). -/
def pushChar (sc : Scan) (c : Byte) : Except CommandError Scan :=
  if sc.finalSeen then .error .invalidPadding
  else if (sc.win ++ [c]).length = 8 then closeWindow sc (sc.win ++ [c])
  else .ok { sc with win := sc.win ++ [c] }

/-- One character of the scan (rule R104), its checks in the order of rule R145. -/
def scanChar (sc : Scan) (c : Byte) : Except CommandError Scan :=
  match classOf c with
  | .ws => .ok sc
  | .bad => .error .invalidCharacter
  | .data => pushChar sc c
  | .pad => pushChar sc c

/-- The scan of `B32DEC` in ascending index; the first error reached is the result (rules R104 and R145). -/
def scanChars : Scan → List Byte → Except CommandError (List Byte)
  | sc, [] => if sc.win.length ≠ 0 then .error .invalidPadding else .ok sc.out
  | sc, c :: cs =>
    match scanChar sc c with
    | .ok sc' => scanChars sc' cs
    | .error e => .error e

/-- The byte sequence of a character sequence, or its error (rule R104). -/
def decodeChars (chars : List Byte) : Except CommandError (List Byte) :=
  scanChars { out := [], win := [], finalSeen := false } chars

end Sys2Proof.Machine
end

