-- ==== Sys2Proof/Machine/Codec.lean ====
section
/-! DEFINITION. The meanings of the four codec commands (rules R90, R92, R100 and R104 of `40_base32_codec.md`). -/

namespace Sys2Proof.Machine

/-- `B32ENCC`, encode one full chunk (rule R90). -/
def execB32encc (s : State) : Host.Outcome State Fault Refusal :=
  if LengthIs 5 s then succeed (chunkSymbols (inputBytes s)) s else raise .operandLength s

/-- `B32DECC`, decode one chunk of 8 characters into 5 bytes (rule R92). -/
def execB32decc (s : State) : Host.Outcome State Fault Refusal :=
  if LengthIs 8 s then finish ((chunkGroups (inputBytes s)).map unpack8) s else raise .operandLength s

/-- `B32ENC`, encode a byte sequence (rule R100). -/
def execB32enc (s : State) : Host.Outcome State Fault Refusal :=
  if LengthFits s then succeed (encodeBytes (inputBytes s)) s else raise .operandLength s

/-- `B32DEC`, decode a character sequence (rule R104). -/
def execB32dec (s : State) : Host.Outcome State Fault Refusal :=
  if LengthFits s then finish (decodeChars (inputBytes s)) s else raise .operandLength s

end Sys2Proof.Machine
end

