-- ==== Sys2Proof/Machine/Hotp.lean ====
section
/-! DEFINITION. Counter serialisation, dynamic truncation and the decimal digits (rules R120, R124 and R125 of
`41_hotp_truncation.md`), and the meanings of `CTRSER` and `HTRUNC`. -/

namespace Sys2Proof.Machine

/-- `out[i] = (C >> (8 * (7 - i))) & 0xFF` for `i = 0..7` (rule R120). -/
def counterBytes (c : BitVec 64) : List Byte :=
  (List.range 8).map fun i => (c >>> (8 * (7 - i))).setWidth 8

/-- `o = d[19] & 0x0F` (rules R124 and R127). -/
def truncationOffset (d : List Byte) : Nat := (d.getD 19 0#8 &&& 0x0F#8).toNat

/-- `P = ((d[o] & 0x7F) << 24) | (d[o+1] << 16) | (d[o+2] << 8) | d[o+3]` (rule R124). -/
def truncatedValue (d : List Byte) (o : Nat) : Word :=
  (((d.getD o 0#8).setWidth 32 &&& 0x7F#32) <<< 24)
    ||| ((d.getD (o + 1) 0#8).setWidth 32 <<< 16)
    ||| ((d.getD (o + 2) 0#8).setWidth 32 <<< 8)
    ||| (d.getD (o + 3) 0#8).setWidth 32

/-- The character of a decimal digit (rule R80). -/
def digitChar (n : Nat) : Byte := 0x30#8 + BitVec.ofNat 8 n

/-- The decimal numeral of `p` without leading zeros, of at most as many digits as the first argument says. -/
def numeralUpTo : Nat → Nat → List Byte
  | 0, _ => []
  | k + 1, p => if p < 10 then [digitChar p] else numeralUpTo k (p / 10) ++ [digitChar (p % 10)]

/-- `S`: the decimal numeral of `P`, "0" when `P = 0`; 1 to 10 characters since `P < 2^31` (rule R124). -/
def decimalNumeral (p : Nat) : List Byte := numeralUpTo 10 p

/-- `S` left-padded with `0` to `l` characters (rule R124). -/
def paddedNumeral (l p : Nat) : List Byte :=
  List.replicate (l - (decimalNumeral p).length) (digitChar 0) ++ decimalNumeral p

/-- The last `l` characters of the padded numeral: exactly `l` of them, none when `l = 0` (rule R124). -/
def codeDigits (l p : Nat) : List Byte := (paddedNumeral l p).drop ((paddedNumeral l p).length - l)

/-- The state in which a successful `HTRUNC L` has written `OFFSET`, `TRUNC` and `CODE` (rule R124). -/
def writeTruncation (l o : Nat) (p : Word) (s : State) : State :=
  { s with
    offset := BitVec.ofNat 4 o
    trunc := p.setWidth 31
    code := BitVec.ofNat 31 (p.toNat % 10 ^ l) }

/-- `CTRSER`, serialise the 64-bit counter big-endian; it cannot fail (rule R120). -/
def execCtrser (s : State) : Host.Outcome State Fault Refusal := succeed (counterBytes (counterValue s)) s

/-- `HTRUNC L`, truncate a 20-byte digest and render `L` decimal digits (rule R124). -/
def execHtrunc (l : Nat) (s : State) : Host.Outcome State Fault Refusal :=
  if LengthIs 20 s then
    let d := inputBytes s
    let o := truncationOffset d
    let p := truncatedValue d o
    succeed (codeDigits l p.toNat) (writeTruncation l o p s)
  else raise .operandLength s

end Sys2Proof.Machine
end

