-- ==== Sys2Proof/Machine/Dispatch.lean ====
section
/-! DEFINITION. Every command's meaning, by one call each (rule R62 of `30_encoding.md`). -/

namespace Sys2Proof.Machine

/-- What a command does to the state (rule R71, "run the rule of command k"). -/
def exec (i : Instr) (s : State) : Host.Outcome State Fault Refusal :=
  match i with
  | .b32encc => Sys2Proof.Machine.execB32encc s
  | .b32decc => Sys2Proof.Machine.execB32decc s
  | .b32enc => Sys2Proof.Machine.execB32enc s
  | .b32dec => Sys2Proof.Machine.execB32dec s
  | .ctrser => Sys2Proof.Machine.execCtrser s
  | .htrunc l => Sys2Proof.Machine.execHtrunc l s

end Sys2Proof.Machine
end

