-- ==== Sys2Proof/Machine/Bus.lean ====
section
/-! DEFINITION. The host's accesses (rules R40 to R48 of `20_memory.md`), the command frame (rule R71 of
`30_encoding.md`) and one step of the machine. -/

namespace Sys2Proof.Machine

/-- What an access of a width at an address is an access to (rules R43 and R44). -/
inductive Location where
  | register (r : Reg)
  | input (i : Nat)
  | output (i : Nat)
  /-- a reserved offset (rule R48) -/
  | reserved
  /-- a width or an alignment that the place does not have (rule R44) -/
  | undefined
  /-- not in the window -/
  | outside
deriving DecidableEq, Repr

/-- The size of the window (rule R43). -/
def windowBytes : Nat := 0x1000

/-- The offset column of rule R43. -/
def regOffset : Reg → Nat
  | .cmd => 0x000
  | .status => 0x004
  | .ilen => 0x008
  | .olen => 0x00C
  | .ctrLo => 0x010
  | .ctrHi => 0x014
  | .offset => 0x018
  | .trunc => 0x01C
  | .code => 0x020

/-- The register of a multiple of 4 below `0x024` (rule R43). -/
def regAt (off : Nat) : Reg :=
  if off = 0x000 then .cmd
  else if off = 0x004 then .status
  else if off = 0x008 then .ilen
  else if off = 0x00C then .olen
  else if off = 0x010 then .ctrLo
  else if off = 0x014 then .ctrHi
  else if off = 0x018 then .offset
  else if off = 0x01C then .trunc
  else .code

/-- The address map of rule R43 with the widths of rule R44, on a window offset. -/
def locateOffset (c : Config) (off n : Nat) : Location :=
  if off < 0x024 then (if n = 4 ∧ off % 4 = 0 then .register (regAt off) else .undefined)
  else if off < ibufOffset then .reserved
  else if off < ibufOffset + c.nIn then (if n = 1 then .input (off - ibufOffset) else .undefined)
  else if off < obufOffset then .reserved
  else if off < obufOffset + c.nOut then (if n = 1 then .output (off - obufOffset) else .undefined)
  else .reserved

/-- The place of a host access of `n` bytes at `addr` (rules R40 and R43). -/
def locate (c : Config) (addr n : Nat) : Location :=
  if c.base ≤ addr ∧ addr < c.base + windowBytes then locateOffset c (addr - c.base) n else .outside

/-- The command frame (rules R71, R64 and R144): decode the word, then run the command's rule; an illegal word only
fails. -/
def commandFrame (w : Word) (s : State) : Host.Outcome State Fault Refusal :=
  match decode w with
  | .command i => exec i s
  | .illegal _ => raise .illegalCommand s

/-- `MemRead(addr, n)`: the value goes to the host and nothing else in the block changes (rule R45). -/
def memRead (addr n : Nat) (s : State) : Host.Outcome State Fault Refusal :=
  match locate s.cfg addr n with
  | .register r => .next (receive (readReg s r) s)
  | .input i => .next (receive ((ibufByte s i).setWidth 32) s)
  | .output i => .next (receive ((obufByte s i).setWidth 32) s)
  | .reserved => .refused .reservedOffset
  | .undefined => .refused .undefinedAccess
  | .outside => .fault .outsideWindow

/-- A 4-byte write of a register: of `CMD`, a whole command as part of the same step (rule R41); of another, the store of
`writeReg`. -/
def regWrite (r : Reg) (v : Word) (s : State) : Host.Outcome State Fault Refusal :=
  match r with
  | .cmd => commandFrame v s
  | .status => .next (writeReg .status v s)
  | .ilen => .next (writeReg .ilen v s)
  | .olen => .next (writeReg .olen v s)
  | .ctrLo => .next (writeReg .ctrLo v s)
  | .ctrHi => .next (writeReg .ctrHi v s)
  | .offset => .next (writeReg .offset v s)
  | .trunc => .next (writeReg .trunc v s)
  | .code => .next (writeReg .code v s)

/-- `MemWrite(addr, n, v)`: a write of an `OBUF` byte is ignored (rules R17 and R46). -/
def memWrite (addr n : Nat) (v : Word) (s : State) : Host.Outcome State Fault Refusal :=
  match locate s.cfg addr n with
  | .register r => regWrite r v s
  | .input i => .next (writeIbuf i (v.setWidth 8) s)
  | .output _ => .next s
  | .reserved => .refused .reservedOffset
  | .undefined => .refused .undefinedAccess
  | .outside => .fault .outsideWindow

/-- One host step (rules R40 and R170). -/
def perform (h : HostStep) (s : State) : Host.Outcome State Fault Refusal :=
  match h with
  | .memRead addr n => memRead addr n s
  | .memWrite addr n v => memWrite addr n v s
  | .reset => .next (resetEvent s)

/-- The address of a register (rule R43). -/
def regAddr (c : Config) (r : Reg) : Nat := c.base + regOffset r

/-- The host step that starts the command of word `w`: `WR CMD, w` (rules R13 and R66). -/
def cmdWrite (c : Config) (w : Word) : HostStep := .memWrite (regAddr c .cmd) 4 w

/-- The host's next step in the total order of rule R50. With nothing left to do the run is over (rule R9) and the state
stays as it is (log 2). -/
def hostTurn (s : State) : Host.Outcome State Fault Refusal :=
  match s.script with
  | [] => .next s
  | h :: rest => perform h { s with script := rest }

end Sys2Proof.Machine
end

