-- ==== Sys2Proof/Machine/Step.lean ====
section
/-! DEFINITION. One step of the machine: the host's next access, with the whole command it may start (rules R40 and R41 of
`20_memory.md`). -/

namespace Sys2Proof.Machine

/-- One step: the next host access or reset event of `script` (rule R50). -/
def step (s : State) : Host.Outcome State Fault Refusal := hostTurn s

/-- `s` with a write of the command word `w` to `CMD` as the host's next step. The block fetches nothing (rule R12): a
command is delivered by this write, so this is where the next one comes from (log 12). -/
def State.withFetchWord (s : State) (nbits w : Nat) : State :=
  { s with script := cmdWrite s.cfg (tableWord nbits w) :: s.script }

end Sys2Proof.Machine
end

