-- ==== Sys2Proof/Machine/Script.lean ====
section
/-! DEFINITION. Host scripts: what a statement of rule R66 and a pseudo-statement of rule R67 (`30_encoding.md`) does,
access by access. `COPYOUT` and `CHECK` are loops of the host and no feature of the block. -/

namespace Sys2Proof.Machine

/-- Do `f` after an outcome that is a next state. -/
def andThen (o : Host.Outcome State Fault Refusal) (f : State → Host.Outcome State Fault Refusal) :
    Host.Outcome State Fault Refusal :=
  match o with
  | .next s => f s
  | .fault r => .fault r
  | .refused r => .refused r

/-- Host steps one after the other. -/
def performAll : List HostStep → State → Host.Outcome State Fault Refusal
  | [], s => .next s
  | h :: hs, s => andThen (perform h s) (performAll hs)

/-- `WR reg, v` (rule R66). -/
def wrStep (c : Config) (r : Reg) (v : Word) : HostStep := .memWrite (regAddr c r) 4 v

/-- `RD reg` (rule R66). -/
def rdStep (c : Config) (r : Reg) : HostStep := .memRead (regAddr c r) 4

/-- `WRB IBUF+i, b` (rule R66). -/
def wrbStep (c : Config) (i : Nat) (b : Byte) : HostStep := .memWrite (c.base + ibufOffset + i) 1 (b.setWidth 32)

/-- `RDB IBUF+i` (rule R66). -/
def rdbIbufStep (c : Config) (i : Nat) : HostStep := .memRead (c.base + ibufOffset + i) 1

/-- `RDB OBUF+i` (rule R66). -/
def rdbObufStep (c : Config) (i : Nat) : HostStep := .memRead (c.base + obufOffset + i) 1

/-- `WRB IBUF+i, b0`; `WRB IBUF+(i+1), b1`; and so on (rule R67). -/
def wrbSteps (c : Config) : Nat → List Byte → List HostStep
  | _, [] => []
  | i, b :: bs => wrbStep c i b :: wrbSteps c (i + 1) bs

/-- `LOADB b0 b1 ... b(n-1)` (rule R67). -/
def loadBytesSteps (c : Config) (bytes : List Byte) : List HostStep :=
  wrbSteps c 0 bytes ++ [wrStep c .ilen (BitVec.ofNat 32 bytes.length)]

/-- The code of a character of a text (rule R80; `\xHH` is the character of code `HH`, rule R67). -/
def charCode (ch : Char) : Byte := BitVec.ofNat 8 ch.toNat

/-- `LOADCTR v`: the low half, then the high half (rule R67). -/
def loadCounterSteps (c : Config) (v : BitVec 64) : List HostStep :=
  [wrStep c .ctrLo (v.extractLsb' 0 32), wrStep c .ctrHi (v.extractLsb' 32 32)]

/-- What the host's latest read returned. -/
def lastReceived (s : State) : Word := s.received.headD 0#32

/-- The loop of `COPYOUT`: `b = RDB OBUF+i`; `WRB IBUF+i, b`; for as many `i` as the first argument says (rule R67). -/
def copyLoop : Nat → Nat → State → Host.Outcome State Fault Refusal
  | 0, _, s => .next s
  | k + 1, i, s =>
    andThen (perform (rdbObufStep s.cfg i) s) fun s1 =>
      andThen (perform (wrbStep s1.cfg i ((lastReceived s1).setWidth 8)) s1) (copyLoop k (i + 1))

/-- `COPYOUT`: `n = RD OLEN`; the loop; then `WR ILEN, n` (rule R67). The rule "requires `n <= N_IN`" and gives no outcome
above it. DESIGN CHOICE (log 19): the model issues the accesses all the same. The write to `IBUF+N_IN` is then refused as a
reserved offset, or, with `N_IN = 1024`, falls on `OBUF[0]` and is ignored, and `ILEN` ends above `N_IN`. -/
def copyOut (s : State) : Host.Outcome State Fault Refusal :=
  andThen (perform (rdStep s.cfg .olen) s) fun s1 =>
    andThen (copyLoop (lastReceived s1).toNat 0 s1) fun s2 =>
      perform (wrStep s2.cfg .ilen (lastReceived s1)) s2

/-- `RDB OBUF+i` for as many `i` as the first argument says. -/
def readLoop : Nat → Nat → State → Host.Outcome State Fault Refusal
  | 0, _, s => .next s
  | k + 1, i, s => andThen (perform (rdbObufStep s.cfg i) s) (readLoop k (i + 1))

/-- The reads of `CHECK OBUF`: `RD OLEN`, then `RDB OBUF+i` for each `i < OLEN` (rule R67). -/
def readOutput (s : State) : Host.Outcome State Fault Refusal :=
  andThen (perform (rdStep s.cfg .olen) s) fun s1 => readLoop (lastReceived s1).toNat 0 s1

/-- A statement, run access by access (rules R66 and R67). -/
def runStmt (st : Stmt) (s : State) : Host.Outcome State Fault Refusal :=
  match st with
  | .wr r v => perform (wrStep s.cfg r v) s
  | .rd r => perform (rdStep s.cfg r) s
  | .wrb i b => perform (wrbStep s.cfg i b) s
  | .rdbIbuf i => perform (rdbIbufStep s.cfg i) s
  | .rdbObuf i => perform (rdbObufStep s.cfg i) s
  | .command i => perform (cmdWrite s.cfg (encode i)) s
  | .reset => perform .reset s
  | .loadb bytes => performAll (loadBytesSteps s.cfg bytes) s
  | .loads text => performAll (loadBytesSteps s.cfg (text.map charCode)) s
  | .loadctr v => performAll (loadCounterSteps s.cfg v) s
  | .copyout => copyOut s
  | .checkReg r _ => perform (rdStep s.cfg r) s
  | .checkObuf _ => readOutput s

/-- A script of statements, one after the other. -/
def runScript : List Stmt → State → Host.Outcome State Fault Refusal
  | [], s => .next s
  | st :: sts, s => andThen (runStmt st s) (runScript sts)

/-- What a `CHECK` statement compares, from the values that its reads returned: the host's business (rule R67, log 16).
Other statements compare nothing. -/
def checkHolds (st : Stmt) (s : State) : Bool :=
  match st, runStmt st s with
  | .checkReg _ v, .next t => decide (lastReceived t = v)
  | .checkObuf bytes, .next t =>
    decide (t.received = (bytes.map fun b => b.setWidth 32).reverse
      ++ BitVec.ofNat 32 bytes.length :: s.received)
  | .checkReg _ _, _ => false
  | .checkObuf _, _ => false
  | _, _ => true

end Sys2Proof.Machine
end

