-- ==== Sys2Proof/Safety.lean ====
section
/-! DEFINITION. The terms that statements use: the invariant of the block, the host's duty before a command (rule R172 of
`70_reset_and_hazards.md`), what a command keeps and how it ends, and the shapes of a decoder's input (rule R106 of
`40_base32_codec.md`). -/

namespace Sys2Proof.Machine

/-! ### The invariant -/

/-- "The values `STATUS` can hold are therefore exactly" these (rule R14). -/
abbrev StatusLegal (w : Word) : Prop :=
  w = 0x00000000#32 ∨ w = 0x00000001#32 ∨ w = 0x00000013#32 ∨ w = 0x00000023#32 ∨ w = 0x00000033#32 ∨ w = 0x00000043#32

/-- The invariant of the block. The parameters are legal (rule R5); `STATUS` holds a legal value (rule R14); `OLEN` is at
most `N_OUT` (rule R18) and 0 unless the latest command succeeded (rules R26 and R146); `IBUF` is in canonical form and
lists no byte beyond `N_IN` (rule R16); `OBUF` lists exactly the bytes below `OLEN` (rule R17). -/
abbrev State.Inv (s : State) : Prop :=
  s.cfg.Legal ∧
  StatusLegal s.status ∧
  s.olen.toNat ≤ s.cfg.nOut ∧
  (s.status ≠ 0x00000001#32 → s.olen = 0#16) ∧
  Memory.wf s.ibuf ∧
  (∀ c ∈ s.ibuf, c.1 < s.cfg.nIn) ∧
  s.obuf.map Prod.fst = List.range s.olen.toNat

/-! ### Before a command -/

/-- The host has written every input byte of the next command since the last reset (rule R172). -/
abbrev InputWritten (s : State) : Prop :=
  ∀ i, i < s.ilen.toNat → (Memory.get s.ibuf i).isSome = true

/-- The command checks `ILEN` and reads `IBUF`: all but `CTRSER` (rules R11 and R143). -/
def readsInput : Instr → Bool
  | .b32encc => true
  | .b32decc => true
  | .b32enc => true
  | .b32dec => true
  | .ctrser => false
  | .htrunc _ => true

/-! ### After a command -/

/-- The operands, the parameters and the host's own part are as before: no command writes them (rules R11, R16, R54). -/
abbrev OperandsKept (s t : State) : Prop :=
  t.ilen = s.ilen ∧ t.ctrLo = s.ctrLo ∧ t.ctrHi = s.ctrHi ∧ (∀ a, Memory.get t.ibuf a = Memory.get s.ibuf a) ∧
  t.cfg = s.cfg ∧ t.script = s.script ∧ t.received = s.received

/-- `OFFSET`, `TRUNC` and `CODE` are as before (rules R20 to R22). -/
abbrev TruncationKept (s t : State) : Prop := t.offset = s.offset ∧ t.trunc = s.trunc ∧ t.code = s.code

/-- `t` is `s` after a success with output `out` (rule R71): `STATUS` success, `OLEN` its length, `OBUF` the output and
nothing else defined, the operands kept. `OFFSET`, `TRUNC` and `CODE` are said beside it. -/
abbrev EndsWith (out : List Byte) (s t : State) : Prop :=
  t.status = 0x00000001#32 ∧ t.olen.toNat = out.length ∧ (∀ j, Memory.get t.obuf j = out[j]?) ∧ OperandsKept s t

/-- `t` is `s` after an error that records `status` (rule R146): `OLEN` 0, no `OBUF` byte defined, all else kept. -/
abbrev FailsWith (status : Word) (s t : State) : Prop :=
  t.status = status ∧ t.olen = 0#16 ∧ (∀ j, Memory.get t.obuf j = none) ∧ OperandsKept s t ∧ TruncationKept s t

/-- The output sequence `OBUF[0..OLEN-1]`, meaningful after a command that succeeded (rules R17 and R173). -/
def outputBytes (s : State) : List Byte := (List.range s.olen.toNat).map (obufByte s)

/-! ### The encoder's output, character by character -/

/-- Byte `m` of chunk `i` of the `n` bytes `b`, 0 beyond the last one (rule R100: "as if trailing bytes were zero"). -/
def chunkByte (n : Nat) (b : Nat → Byte) (i m : Nat) : Nat := if 5 * i + m < n then (b (5 * i + m)).toNat else 0

/-- The 40-bit value of chunk `i` (rule R86). -/
def chunkNumber (n : Nat) (b : Nat → Byte) (i : Nat) : Nat :=
  chunkByte n b i 0 * 2 ^ 32 + chunkByte n b i 1 * 2 ^ 24 + chunkByte n b i 2 * 2 ^ 16 + chunkByte n b i 3 * 2 ^ 8
    + chunkByte n b i 4

/-- Character `j` of the encoding of the `n` bytes `b`: group `j % 8` of chunk `j / 8` spelled by the alphabet where it
holds a data bit, `=` where it holds none (rules R86, R89 and R100). A chunk of `r` bytes has data in the groups `k` with
`5 k < 8 r`. -/
def symbolAt (n : Nat) (b : Nat → Byte) (j : Nat) : Byte :=
  if 5 * (j % 8) < 8 * (n - 5 * (j / 8)) then
    sym (BitVec.ofNat 5 (chunkNumber n b (j / 8) / 2 ^ (35 - 5 * (j % 8)) % 32))
  else padSymbol

/-! ### The decoder's input -/

/-- The input with every whitespace character removed (rule R106). -/
def stripped (chars : List Byte) : List Byte := chars.filter fun c => decide (classOf c ≠ .ws)

/-- `W1 ++ ... ++ Wk`, each eight `DATA` characters (rule R106). -/
abbrev FullWindows (ws : List (List Byte)) : Prop := ∀ w ∈ ws, w.length = 8 ∧ ∀ c ∈ w, classOf c = .data

/-- `F`: `t` `DATA` characters, then `8 - t` `PAD` characters, with `t` in {2, 4, 5, 7} (rule R106). -/
abbrev FinalWindow (t : Nat) (f : List Byte) : Prop :=
  (t = 2 ∨ t = 4 ∨ t = 5 ∨ t = 7) ∧
  ∃ d : List Byte, d.length = t ∧ (∀ c ∈ d, classOf c = .data) ∧ f = d ++ List.replicate (8 - t) padSymbol

/-- `unpack8(vals(W1)) ++ ... ++ unpack8(vals(Wk))` (rule R106). -/
def windowsBytes (ws : List (List Byte)) : List Byte := (ws.map fun w => unpack8 (w.map groupOf)).flatten

/-- What the scan may have stripped and read without an error: full windows, then a window not yet complete, or a final
window and nothing after it (rules R104 and R145). -/
abbrev CleanSoFar (str : List Byte) : Prop :=
  ∃ ws f, FullWindows ws ∧ str = ws.flatten ++ f ∧
    ((f.length < 8 ∧ ∀ c ∈ f, classOf c = .data ∨ classOf c = .pad) ∨ ∃ t, FinalWindow t f)

end Sys2Proof.Machine
end

