-- ==== Sys2Proof/Certificates/Slice0/Obligations.lean ====
section
/-! DEFINITION. The statements for the provers. Each docstring names the rules of `spec/` it formalises; a clause that is
the model's own choice says so and names its log entry. -/

open Sys2Proof Sys2Proof.Machine

/-! ### Encoding -/

/-- R60 to R63 and R70: decoding the word of a well-formed command gives the command back, every operand at every value. -/
def Obligations.DecodeOfEncode : Prop :=
  ∀ i : Instr, i.WellFormed → decode (encode i) = .command i

/-- R60 to R63 and R70: a word that decodes to a command is that command's word, so no two words mean one command and no
bit is dropped. -/
def Obligations.EncodeOfDecode : Prop :=
  ∀ (w : Word) (i : Instr), decode w = .command i → i.WellFormed ∧ encode i = w

/-- R62: a word is a command if and only if `(w & mask) == match` for the command's row. -/
def Obligations.DecodeMatchesTable : Prop :=
  ∀ w : Word,
    (decode w = .command .b32encc ↔ w &&& 0xFFFFFFFF#32 = 0x00000010#32) ∧
    (decode w = .command .b32decc ↔ w &&& 0xFFFFFFFF#32 = 0x00000011#32) ∧
    (decode w = .command .b32enc ↔ w &&& 0xFFFFFFFF#32 = 0x00000012#32) ∧
    (decode w = .command .b32dec ↔ w &&& 0xFFFFFFFF#32 = 0x00000013#32) ∧
    (decode w = .command .ctrser ↔ w &&& 0xFFFFFFFF#32 = 0x00000020#32) ∧
    ((∃ l, decode w = .command (.htrunc l)) ↔ w &&& 0xFFFFF0FF#32 = 0x00000021#32)

/-- R63: the code length of `HTRUNC` is bits 11:8 of the word, unsigned and unscaled. -/
def Obligations.CodeLengthIsBitsElevenToEight : Prop :=
  ∀ (w : Word) (l : Nat), decode w = .command (.htrunc l) → l = w.toNat / 2 ^ 8 % 16

/-- R62: words written out from the table decode to their commands (a sanity check). -/
def Obligations.DecodeSampleWords : Prop :=
  decode 0x00000010#32 = .command .b32encc ∧ decode 0x00000011#32 = .command .b32decc ∧
  decode 0x00000012#32 = .command .b32enc ∧ decode 0x00000013#32 = .command .b32dec ∧
  decode 0x00000020#32 = .command .ctrser ∧ decode 0x00000621#32 = .command (.htrunc 6) ∧
  decode 0x00000F21#32 = .command (.htrunc 15)

/-- R70: the legal words are exactly these 21. -/
def Obligations.LegalWordsAreTwentyOne : Prop :=
  ∀ w : Word, (∃ i, decode w = .command i) ↔
    w ∈ [0x00000010#32, 0x00000011#32, 0x00000012#32, 0x00000013#32, 0x00000020#32] ∨
    ∃ l, l ≤ 15 ∧ w = 0x00000021#32 + 0x100#32 * BitVec.ofNat 32 l

/-! ### A step -/

/-- R40 and R50, as the model holds them (log 1): a step does the first thing the host has to do, and takes it off the
schedule. -/
def Obligations.StepPerformsNextHostStep : Prop :=
  ∀ (s : State) (h : HostStep) (rest : List HostStep), s.script = h :: rest →
    step s = perform h { s with script := rest }

/-- R9, as the model reads it (log 2): when the host issues no further access, a step changes nothing. -/
def Obligations.StepWithoutHostAccess : Prop :=
  ∀ s : State, s.script = [] → step s = .next s

/-- R13, R41 and R71: a 4-byte write of the word of a command at `BASE + 0x000` runs exactly that command, in the state
whose schedule (log 1) has moved past the write. -/
def Obligations.StepRunsDecodedCommand : Prop :=
  ∀ (s : State) (w : Word) (i : Instr) (rest : List HostStep),
    s.script = .memWrite (s.cfg.base + 0x000) 4 w :: rest → decode w = .command i →
    step s = exec i { s with script := rest }

/-- R64 and R144: a word with a bit in 31:12, an N-format opcode with `ARG != 0`, or an unassigned opcode does nothing but
fail with `STATUS` 0x00000043. -/
def Obligations.IllegalWordOnlyFails : Prop :=
  ∀ (s : State) (w : Word),
    (w.toNat / 2 ^ 12 ≠ 0 ∨
      (w.toNat % 2 ^ 8 ∈ [0x10, 0x11, 0x12, 0x13, 0x20] ∧ w.toNat / 2 ^ 8 % 16 ≠ 0) ∨
      w.toNat % 2 ^ 8 ∉ [0x10, 0x11, 0x12, 0x13, 0x20, 0x21]) →
    ∃ t, perform (.memWrite (s.cfg.base + 0x000) 4 w) s = .next t ∧ FailsWith 0x00000043#32 s t

/-! ### The codec commands -/

/-- R90, with the groups as R86 writes them out: `B32ENCC` completes on exactly 5 bytes with their 8 symbols, and fails
with `OperandLength` on any other length. -/
def Obligations.EncodeChunkResult : Prop :=
  ∀ s : State,
    (LengthIs 5 s → ∃ t, exec .b32encc s = .next t ∧ TruncationKept s t ∧
      EndsWith
        [ sym ((ibufByte s 0 >>> 3).setWidth 5),
          sym ((((ibufByte s 0 &&& 0x07#8) <<< 2) ||| (ibufByte s 1 >>> 6)).setWidth 5),
          sym (((ibufByte s 1 >>> 1) &&& 0x1F#8).setWidth 5),
          sym ((((ibufByte s 1 &&& 0x01#8) <<< 4) ||| (ibufByte s 2 >>> 4)).setWidth 5),
          sym ((((ibufByte s 2 &&& 0x0F#8) <<< 1) ||| (ibufByte s 3 >>> 7)).setWidth 5),
          sym (((ibufByte s 3 >>> 2) &&& 0x1F#8).setWidth 5),
          sym ((((ibufByte s 3 &&& 0x03#8) <<< 3) ||| (ibufByte s 4 >>> 5)).setWidth 5),
          sym ((ibufByte s 4 &&& 0x1F#8).setWidth 5) ] s t) ∧
    (¬ LengthIs 5 s → ∃ t, exec .b32encc s = .next t ∧ FailsWith 0x00000033#32 s t)

/-- R92, with the bytes as R87 writes them out: `B32DECC` completes on exactly 8 characters, each a data symbol or `=`
(value 0 anywhere), with 5 bytes; any other character, whitespace too, is `InvalidCharacter`; any other length is
`OperandLength`. -/
def Obligations.DecodeChunkResult : Prop :=
  ∀ (s : State) (g : Nat → Byte),
    (∀ k, g k = if classOf (ibufByte s k) = .data then (val (ibufByte s k)).setWidth 8 else 0#8) →
    (LengthIs 8 s →
      ((∀ k, k < 8 → classOf (ibufByte s k) = .data ∨ classOf (ibufByte s k) = .pad) →
        ∃ t, exec .b32decc s = .next t ∧ TruncationKept s t ∧
          EndsWith
            [ (g 0 <<< 3) ||| (g 1 >>> 2),
              ((g 1 &&& 0x03#8) <<< 6) ||| (g 2 <<< 1) ||| (g 3 >>> 4),
              ((g 3 &&& 0x0F#8) <<< 4) ||| (g 4 >>> 1),
              ((g 4 &&& 0x01#8) <<< 7) ||| (g 5 <<< 2) ||| (g 6 >>> 3),
              ((g 6 &&& 0x07#8) <<< 5) ||| g 7 ] s t) ∧
      ((∃ k, k < 8 ∧ classOf (ibufByte s k) ≠ .data ∧ classOf (ibufByte s k) ≠ .pad) →
        ∃ t, exec .b32decc s = .next t ∧ FailsWith 0x00000013#32 s t)) ∧
    (¬ LengthIs 8 s → ∃ t, exec .b32decc s = .next t ∧ FailsWith 0x00000033#32 s t)

/-- R100: `B32ENC` completes on any input of at most `N_IN` bytes with `8 * ceil(n/5)` characters, character `j` being
group `j % 8` of chunk `j / 8` or `=`; a longer input is `OperandLength`. -/
def Obligations.EncodeSequenceResult : Prop :=
  ∀ s : State, s.cfg.Legal →
    (s.ilen.toNat ≤ s.cfg.nIn → ∃ t, exec .b32enc s = .next t ∧ TruncationKept s t ∧
      EndsWith ((List.range (8 * ((s.ilen.toNat + 4) / 5))).map (symbolAt s.ilen.toNat (ibufByte s))) s t) ∧
    (s.cfg.nIn < s.ilen.toNat → ∃ t, exec .b32enc s = .next t ∧ FailsWith 0x00000033#32 s t)

/-- R106 (and R104, R145): what `B32DEC` answers on every input of at most `N_IN` characters. Full windows, with or
without a final one, decode; without a bad character anything else is `InvalidPadding`; with one, `InvalidCharacter` if
the scan reaches it, else `InvalidPadding`. -/
def Obligations.DecodeSequenceResult : Prop :=
  ∀ s : State, s.ilen.toNat ≤ s.cfg.nIn →
    (∀ ws, FullWindows ws → stripped (inputBytes s) = ws.flatten →
      ∃ t, exec .b32dec s = .next t ∧ TruncationKept s t ∧ EndsWith (windowsBytes ws) s t) ∧
    (∀ ws f k, FullWindows ws → FinalWindow k f → stripped (inputBytes s) = ws.flatten ++ f →
      ∃ t, exec .b32dec s = .next t ∧ TruncationKept s t ∧
        EndsWith (windowsBytes ws ++ (unpack8 (f.map groupOf)).take (5 * k / 8)) s t) ∧
    ((∀ c ∈ inputBytes s, classOf c ≠ .bad) →
      (¬ ∃ ws f, FullWindows ws ∧ (f = [] ∨ ∃ k, FinalWindow k f) ∧ stripped (inputBytes s) = ws.flatten ++ f) →
      ∃ t, exec .b32dec s = .next t ∧ FailsWith 0x00000023#32 s t) ∧
    (∀ pre c post, inputBytes s = pre ++ c :: post → (∀ x ∈ pre, classOf x ≠ .bad) → classOf c = .bad →
      (CleanSoFar (stripped pre) → ∃ t, exec .b32dec s = .next t ∧ FailsWith 0x00000013#32 s t) ∧
      (¬ CleanSoFar (stripped pre) → ∃ t, exec .b32dec s = .next t ∧ FailsWith 0x00000023#32 s t))

/-- R143: an `ILEN` that a command cannot use is `OperandLength`, before any `IBUF` byte matters. -/
def Obligations.UnusableLengthFails : Prop :=
  ∀ s : State,
    (∀ i, readsInput i = true → s.cfg.nIn < s.ilen.toNat →
      ∃ t, exec i s = .next t ∧ FailsWith 0x00000033#32 s t) ∧
    (s.ilen ≠ 5#16 → ∃ t, exec .b32encc s = .next t ∧ FailsWith 0x00000033#32 s t) ∧
    (s.ilen ≠ 8#16 → ∃ t, exec .b32decc s = .next t ∧ FailsWith 0x00000033#32 s t) ∧
    (∀ l, s.ilen ≠ 20#16 → ∃ t, exec (.htrunc l) s = .next t ∧ FailsWith 0x00000033#32 s t)

/-- R110: a successful `B32DEC` of a cleaned input of `m` characters, `p` of them `=`, has `m` a multiple of 8, `p` in
{0, 1, 3, 4, 6}, and puts out `5 * (m/8)` bytes less 0, 1, 2, 3 or 4; never more than `5 * floor(ILEN / 8)`. -/
def Obligations.DecodeOutputLength : Prop :=
  ∀ s t : State, exec .b32dec s = .next t → t.status = 0x00000001#32 →
    (stripped (inputBytes s)).length % 8 = 0 ∧
    (∃ p d, (p, d) ∈ [(0, 0), (1, 1), (3, 2), (4, 3), (6, 4)] ∧
      (stripped (inputBytes s)).countP (fun c => decide (classOf c = .pad)) = p ∧
      t.olen.toNat + d = 5 * ((stripped (inputBytes s)).length / 8)) ∧
    t.olen.toNat ≤ 5 * (s.ilen.toNat / 8)

/-- R112: the 2, 4, 1 or 3 low bits of the last symbol of a final window are dropped, whatever they are: two inputs whose
cleaned characters differ only there decode to the same bytes. -/
def Obligations.DecodeDropsDiscardedBits : Prop :=
  ∀ (s s' : State) (ws : List (List Byte)) (d : List Byte) (x x' : Byte) (k low : Nat),
    (k, low) ∈ [(2, 2), (4, 4), (5, 1), (7, 3)] → FullWindows ws → d.length + 1 = k → (∀ c ∈ d, classOf c = .data) →
    classOf x = .data → classOf x' = .data → (val x).toNat / 2 ^ low = (val x').toNat / 2 ^ low →
    LengthFits s → LengthFits s' →
    stripped (inputBytes s) = ws.flatten ++ (d ++ x :: List.replicate (8 - k) padSymbol) →
    stripped (inputBytes s') = ws.flatten ++ (d ++ x' :: List.replicate (8 - k) padSymbol) →
    ∃ t t' out, exec .b32dec s = .next t ∧ exec .b32dec s' = .next t' ∧ out.length = 5 * ws.length + 5 * k / 8 ∧
      EndsWith out s t ∧ EndsWith out s' t'

/-- R108, item 2: encoding again what `B32DEC` made of an output of `B32ENC` gives that output back. `s'` is any state whose
input is the decoded output. -/
def Obligations.EncodeOfDecodedOutput : Prop :=
  ∀ (s t s' : State) (b : List Byte), inputBytes s = encodeBytes b → LengthFits s → exec .b32dec s = .next t →
    LengthFits s' → inputBytes s' = outputBytes t →
    ∃ t', exec .b32enc s' = .next t' ∧ EndsWith (inputBytes s) s' t'

/-- R108, item 3: `B32DECC` gives back the 5 bytes that `B32ENCC` was given, and `B32ENCC` the 8 data symbols that
`B32DECC` was given. `s'` is any state whose input is the output of the first command. -/
def Obligations.ChunkCommandsAreInverse : Prop :=
  (∀ s t s' : State, LengthIs 5 s → exec .b32encc s = .next t → LengthIs 8 s' →
    (∀ j, j < 8 → ibufByte s' j = obufByte t j) →
    ∃ t', exec .b32decc s' = .next t' ∧ EndsWith (inputBytes s) s' t') ∧
  (∀ s t s' : State, LengthIs 8 s → (∀ j, j < 8 → classOf (ibufByte s j) = .data) → exec .b32decc s = .next t →
    LengthIs 5 s' → (∀ j, j < 5 → ibufByte s' j = obufByte t j) →
    ∃ t', exec .b32encc s' = .next t' ∧ EndsWith (inputBytes s) s' t')

/-- R108, item 4: encoding is injective, and a split at a multiple of 5 bytes encodes piecewise. -/
def Obligations.EncodingSplitsAtChunks : Prop :=
  (∀ a b : List Byte, encodeBytes a = encodeBytes b → a = b) ∧
  (∀ a b : List Byte, a.length % 5 = 0 → encodeBytes (a ++ b) = encodeBytes a ++ encodeBytes b)

/-! ### The truncation unit -/

/-- R120: `CTRSER` always completes, and `OBUF[i]` is byte `7 - i` of the counter, most significant first. -/
def Obligations.CounterSerialised : Prop :=
  ∀ s : State, ∃ t, exec .ctrser s = .next t ∧ TruncationKept s t ∧
    EndsWith ((List.range 8).map fun i =>
      BitVec.ofNat 8 ((s.ctrHi.toNat * 2 ^ 32 + s.ctrLo.toNat) / 256 ^ (7 - i) % 256)) s t

/-- R124 in its closed form: `HTRUNC L` completes on exactly 20 bytes with the offset, the 31-bit value, its remainder and
its last `L` decimal digits; any other length is `OperandLength`. -/
def Obligations.TruncationResult : Prop :=
  ∀ (s : State) (l o p : Nat), l ≤ 15 → o = (ibufByte s 19).toNat % 16 →
    p = (ibufByte s o).toNat % 128 * 2 ^ 24 + (ibufByte s (o + 1)).toNat * 2 ^ 16 + (ibufByte s (o + 2)).toNat * 2 ^ 8
      + (ibufByte s (o + 3)).toNat →
    (LengthIs 20 s → ∃ t, exec (.htrunc l) s = .next t ∧
      t.offset.toNat = o ∧ t.trunc.toNat = p ∧ t.code.toNat = p % 10 ^ l ∧
      EndsWith ((List.range l).map fun j => BitVec.ofNat 8 (0x30 + p / 10 ^ (l - 1 - j) % 10)) s t) ∧
    (¬ LengthIs 20 s → ∃ t, exec (.htrunc l) s = .next t ∧ FailsWith 0x00000033#32 s t)

/-- R125 and R131: after a successful `HTRUNC L`, `OLEN = L`, every `OBUF[j]` below it is a digit, the digits spell
`CODE`, and `CODE = TRUNC` for `L >= 10`. -/
def Obligations.DigitsSpellCode : Prop :=
  ∀ (s t : State) (l : Nat), l ≤ 15 → LengthIs 20 s → exec (.htrunc l) s = .next t →
    t.olen.toNat = l ∧
    (∀ j, j < l → 0x30 ≤ (obufByte t j).toNat ∧ (obufByte t j).toNat ≤ 0x39) ∧
    t.code.toNat = ((List.range l).map fun j => ((obufByte t j).toNat - 0x30) * 10 ^ (l - 1 - j)).sum ∧
    (10 ≤ l → t.code = t.trunc)

/-! ### Every command -/

/-- R11, R14, R16, R17, R20 to R22, R41, R54 and R177: every write of `CMD`, of whatever word, completes; it keeps the
operands; `STATUS` is overwritten whole with `DONE` set and `ERR` equal to `ERRCODE != 0`; no `OBUF` byte from `OLEN` on
is defined; and only an `HTRUNC` that succeeds writes `OFFSET`, `TRUNC` and `CODE`. -/
def Obligations.EveryCommandCompletes : Prop :=
  ∀ (s : State) (w : Word), ∃ t, perform (.memWrite (s.cfg.base + 0x000) 4 w) s = .next t ∧
    OperandsKept s t ∧
    statusDone t.status = true ∧ statusErr t.status = decide (statusErrCode t.status ≠ 0#4) ∧
    t.status.extractLsb' 2 2 = 0#2 ∧ t.status.extractLsb' 8 24 = 0#24 ∧ (statusErrCode t.status).toNat ≤ 4 ∧
    (s.cfg.Legal → ∀ j, t.olen.toNat ≤ j → Memory.get t.obuf j = none) ∧
    ((∀ l, decode w ≠ .command (.htrunc l)) → TruncationKept s t) ∧
    (t.status ≠ 0x00000001#32 → TruncationKept s t)

/-- R146: a command that ends with an error, of whatever cause, writes `OLEN = 0` and its code in `STATUS`, leaves every
`OBUF` byte unspecified, and changes nothing else. -/
def Obligations.FailedCommandChangesNothingElse : Prop :=
  ∀ (s t : State) (w : Word), perform (.memWrite (s.cfg.base + 0x000) 4 w) s = .next t → t.status ≠ 0x00000001#32 →
    ∃ code : Nat, 1 ≤ code ∧ code ≤ 4 ∧ FailsWith (0x00000003#32 ||| (BitVec.ofNat 32 code <<< 4)) s t

/-- R42: the effect of a command is a function of the word, `ILEN`, `IBUF[0..ILEN-1]` and the counter, and of nothing else:
two states that agree on these end alike, whatever `STATUS`, `OBUF` and the rest hold. -/
def Obligations.CommandDependsOnlyOnOperands : Prop :=
  ∀ (s s' : State) (w : Word), s'.cfg = s.cfg → s'.ilen = s.ilen → s'.ctrLo = s.ctrLo → s'.ctrHi = s.ctrHi →
    (∀ i, i < s.ilen.toNat → ibufByte s' i = ibufByte s i) →
    ∃ t t', perform (.memWrite (s.cfg.base + 0x000) 4 w) s = .next t ∧
      perform (.memWrite (s.cfg.base + 0x000) 4 w) s' = .next t' ∧
      t'.status = t.status ∧ t'.olen = t.olen ∧ t'.obuf = t.obuf ∧
      ((TruncationKept s t ∧ TruncationKept s' t') ∨ TruncationKept t t')

/-- R147: the next command after a failed one does what it would have done without it, when its input is written
(R172). -/
def Obligations.FailedCommandLeavesNoTrace : Prop :=
  ∀ (s t : State) (w v : Word), perform (.memWrite (s.cfg.base + 0x000) 4 w) s = .next t →
    t.status ≠ 0x00000001#32 → InputWritten s →
    ∃ u u', perform (.memWrite (s.cfg.base + 0x000) 4 v) s = .next u ∧
      perform (.memWrite (s.cfg.base + 0x000) 4 v) t = .next u' ∧
      u'.status = u.status ∧ u'.olen = u.olen ∧ u'.obuf = u.obuf ∧ TruncationKept u u' ∧ OperandsKept u u'

/-- R54: only a command or a reset writes `OBUF`, `OLEN`, `STATUS`, `OFFSET`, `TRUNC` or `CODE`; only the host writes
`IBUF`, `ILEN` and the counter, so a command writes none of them. -/
def Obligations.EveryPlaceHasOneWriter : Prop :=
  ∀ (s t : State) (h : HostStep), perform h s = .next t →
    ((∀ w, h ≠ .memWrite (s.cfg.base + 0x000) 4 w) → h ≠ .reset →
      t.obuf = s.obuf ∧ t.olen = s.olen ∧ t.status = s.status ∧ TruncationKept s t) ∧
    ((∃ w, h = .memWrite (s.cfg.base + 0x000) 4 w) →
      t.ibuf = s.ibuf ∧ t.ilen = s.ilen ∧ t.ctrLo = s.ctrLo ∧ t.ctrHi = s.ctrHi)

/-! ### The host's accesses -/

/-- R43 and R44: a 4-byte read of each register returns its value, zero-extended; `CMD` reads 0 (R13). -/
def Obligations.RegisterReadValues : Prop :=
  ∀ (s : State) (off : Nat) (v : Word),
    (off, v) ∈ [(0x000, 0#32), (0x004, s.status), (0x008, s.ilen.setWidth 32), (0x00C, s.olen.setWidth 32),
      (0x010, s.ctrLo), (0x014, s.ctrHi), (0x018, s.offset.setWidth 32), (0x01C, s.trunc.setWidth 32),
      (0x020, s.code.setWidth 32)] →
    ∃ t, perform (.memRead (s.cfg.base + off) 4) s = .next t ∧ t.received = v :: s.received

/-- R45: a read changes nothing in the block, whatever it reads. What it returned is the model's note (log 11). -/
def Obligations.ReadsChangeNothing : Prop :=
  ∀ (s t : State) (addr n : Nat), perform (.memRead addr n) s = .next t →
    (∃ v, t.received = v :: s.received) ∧
    t.status = s.status ∧ t.ilen = s.ilen ∧ t.olen = s.olen ∧ t.ctrLo = s.ctrLo ∧ t.ctrHi = s.ctrHi ∧
    TruncationKept s t ∧ t.ibuf = s.ibuf ∧ t.obuf = s.obuf ∧ t.cfg = s.cfg ∧ t.script = s.script

/-- R46: writes of read-only places are ignored, `CMD` reads 0, reserved bits read 0, bits 31:16 written to `ILEN` are
ignored, and reserved bits of a command word are not. -/
def Obligations.AccessRights : Prop :=
  ∀ s : State, s.Inv →
    (∀ (off : Nat) (v : Word), off ∈ [0x004, 0x00C, 0x018, 0x01C, 0x020] →
      perform (.memWrite (s.cfg.base + off) 4 v) s = .next s) ∧
    (∀ (i : Nat) (v : Word), i < s.cfg.nOut → perform (.memWrite (s.cfg.base + 0x800 + i) 1 v) s = .next s) ∧
    (∃ t, perform (.memRead (s.cfg.base + 0x000) 4) s = .next t ∧ t.received = 0#32 :: s.received) ∧
    (∀ (off reserved : Nat), (off, reserved) ∈ [(0x004, 0xFFFFFF0C), (0x008, 0xFFFF0000), (0x00C, 0xFFFF0000),
        (0x018, 0xFFFFFFF0), (0x01C, 0x80000000), (0x020, 0x80000000)] →
      ∃ t v, perform (.memRead (s.cfg.base + off) 4) s = .next t ∧ t.received = v :: s.received ∧
        v &&& BitVec.ofNat 32 reserved = 0#32) ∧
    (∀ v : Word, ∃ t, perform (.memWrite (s.cfg.base + 0x008) 4 v) s = .next t ∧ t.ilen.toNat = v.toNat % 2 ^ 16) ∧
    (∀ w : Word, w.toNat / 2 ^ 12 ≠ 0 →
      ∃ t, perform (.memWrite (s.cfg.base + 0x000) 4 w) s = .next t ∧ FailsWith 0x00000043#32 s t)

/-- R15, R19 and R45: a write of `ILEN`, `CTR_LO` or `CTR_HI` stores its value and changes nothing else. -/
def Obligations.OperandRegisterWrites : Prop :=
  ∀ (s : State) (v : Word),
    perform (.memWrite (s.cfg.base + 0x008) 4 v) s = .next { s with ilen := BitVec.ofNat 16 v.toNat } ∧
    perform (.memWrite (s.cfg.base + 0x010) 4 v) s = .next { s with ctrLo := v } ∧
    perform (.memWrite (s.cfg.base + 0x014) 4 v) s = .next { s with ctrHi := v }

/-- R16, R45 and R50: a byte written to `IBUF[i]` is read back, every other `IBUF` byte that was written keeps its value,
and nothing else changes. -/
def Obligations.InputByteReadsBack : Prop :=
  ∀ (s : State) (i : Nat) (b : Byte), s.cfg.Legal → i < s.cfg.nIn →
    ∃ t u, perform (.memWrite (s.cfg.base + 0x400 + i) 1 (b.setWidth 32)) s = .next t ∧
      perform (.memRead (s.cfg.base + 0x400 + i) 1) t = .next u ∧
      u.received = b.setWidth 32 :: s.received ∧
      (∀ a, a ≠ i → Memory.get t.ibuf a = Memory.get s.ibuf a) ∧
      { t with ibuf := s.ibuf } = s

/-- R17, R50 and R173: a read of `OBUF[i]` always completes, and below `OLEN` it returns the byte that the latest command
put there. -/
def Obligations.OutputByteReads : Prop :=
  ∀ (s : State) (i : Nat), s.Inv → i < s.cfg.nOut →
    ∃ t v, perform (.memRead (s.cfg.base + 0x800 + i) 1) s = .next t ∧ t.received = v :: s.received ∧
      (i < s.olen.toNat → ∃ b, Memory.get s.obuf i = some b ∧ v = b.setWidth 32)

/-- R48 and U4: an access to a reserved offset has no meaning; the model refuses it. That an access there of any width or
alignment, one that R44 leaves undefined too, gets the name `reservedOffset` is the model's choice (log 9, DEDUCED). -/
def Obligations.ReservedOffsetsRefused : Prop :=
  ∀ (s : State) (off n : Nat) (v : Word), s.cfg.Legal →
    (0x024 ≤ off ∧ off < 0x400 ∨ 0x400 + s.cfg.nIn ≤ off ∧ off < 0x800 ∨ 0x800 + s.cfg.nOut ≤ off ∧ off < 0x1000) →
    perform (.memRead (s.cfg.base + off) n) s = .refused .reservedOffset ∧
    perform (.memWrite (s.cfg.base + off) n v) s = .refused .reservedOffset

/-- R44 and U5: a register access that is not one aligned 4-byte access, and a buffer access that is not a 1-byte access,
have no meaning; the model refuses them. That `undefinedAccess` is also the name for one that runs over into a reserved
offset, and for a width of 0, is the model's choice (log 9, DEDUCED). -/
def Obligations.UndefinedAccessesRefused : Prop :=
  ∀ (s : State) (off n : Nat) (v : Word), s.cfg.Legal →
    (off < 0x024 ∧ ¬ (n = 4 ∧ off % 4 = 0) ∨ 0x400 ≤ off ∧ off < 0x400 + s.cfg.nIn ∧ n ≠ 1 ∨
      0x800 ≤ off ∧ off < 0x800 + s.cfg.nOut ∧ n ≠ 1) →
    perform (.memRead (s.cfg.base + off) n) s = .refused .undefinedAccess ∧
    perform (.memWrite (s.cfg.base + off) n v) s = .refused .undefinedAccess

/-- R40 and R43, as the model reads them (log 8): an address outside `BASE .. BASE + 0xFFF` is no address of the block. -/
def Obligations.OutsideWindowFaults : Prop :=
  ∀ (s : State) (addr n : Nat) (v : Word), (addr < s.cfg.base ∨ s.cfg.base + 0x1000 ≤ addr) →
    perform (.memRead addr n) s = .fault .outsideWindow ∧ perform (.memWrite addr n v) s = .fault .outsideWindow

/-! ### Reset and the invariant -/

/-- R26 and R170: from any state the reset event leaves `STATUS`, `ILEN` and `OLEN` 0 and no buffer byte with a defined
value; the parameters stay, and so does the rest of the host's part (log 17). -/
def Obligations.ResetEventState : Prop :=
  ∀ (s : State) (rest : List HostStep), s.script = .reset :: rest →
    ∃ t, step s = .next t ∧ t.status = 0#32 ∧ t.ilen = 0#16 ∧ t.olen = 0#16 ∧
      (∀ a, Memory.get t.ibuf a = none ∧ Memory.get t.obuf a = none) ∧
      t.cfg = s.cfg ∧ t.script = rest ∧ t.received = s.received

/-- R26: the state after reset has `STATUS`, `ILEN` and `OLEN` 0 and the spec's default buffer sizes (R5), and meets the
invariant. -/
def Obligations.ResetMeetsInvariant : Prop :=
  State.reset.Inv ∧ State.reset.status = 0#32 ∧ State.reset.ilen = 0#16 ∧ State.reset.olen = 0#16 ∧
  State.reset.cfg.nIn = 320 ∧ State.reset.cfg.nOut = 512

/-- R5, R14, R16, R17 and R18: every step keeps the invariant. -/
def Obligations.StepKeepsInvariant : Prop :=
  ∀ s t : State, s.Inv → step s = .next t → t.Inv

/-! ### Characters and packing -/

/-- R81 and R82: `sym` spells the alphabet, and `val` is its inverse on exactly the 32 data symbols. -/
def Obligations.ValueOfSymbol : Prop :=
  (∀ g : Group, classOf (sym g) = .data ∧ val (sym g) = g) ∧
  (∀ c : Byte, classOf c = .data → sym (val c) = c) ∧
  (∀ g : Group, (sym g).toNat = if g.toNat ≤ 25 then 0x41 + g.toNat else 0x18 + g.toNat)

/-- R84: the class of every one of the 256 codes. -/
def Obligations.CharacterClasses : Prop :=
  ∀ c : Byte,
    (classOf c = .ws ↔ c.toNat ∈ [0x09, 0x0A, 0x0B, 0x0C, 0x0D, 0x20]) ∧
    (classOf c = .data ↔ 0x41 ≤ c.toNat ∧ c.toNat ≤ 0x5A ∨ 0x32 ≤ c.toNat ∧ c.toNat ≤ 0x37) ∧
    (classOf c = .pad ↔ c.toNat = 0x3D)

/-- R86: `pack5` of five bytes, written out. -/
def Obligations.PackWrittenOut : Prop :=
  ∀ b0 b1 b2 b3 b4 : Byte, (pack5 [b0, b1, b2, b3, b4]).map BitVec.toNat =
    [ b0.toNat / 8, b0.toNat % 8 * 4 + b1.toNat / 64, b1.toNat / 2 % 32, b1.toNat % 2 * 16 + b2.toNat / 16,
      b2.toNat % 16 * 2 + b3.toNat / 128, b3.toNat / 4 % 32, b3.toNat % 4 * 8 + b4.toNat / 32, b4.toNat % 32 ]

/-- R87: `unpack8` of eight groups, written out. -/
def Obligations.UnpackWrittenOut : Prop :=
  ∀ g0 g1 g2 g3 g4 g5 g6 g7 : Group, (unpack8 [g0, g1, g2, g3, g4, g5, g6, g7]).map BitVec.toNat =
    [ g0.toNat * 8 + g1.toNat / 4, g1.toNat % 4 * 64 + g2.toNat * 2 + g3.toNat / 16, g3.toNat % 16 * 16 + g4.toNat / 2,
      g4.toNat % 2 * 128 + g5.toNat * 4 + g6.toNat / 8, g6.toNat % 8 * 32 + g7.toNat ]

/-- R88: `pack5` and `unpack8` are mutually inverse. -/
def Obligations.PackAndUnpackAreInverse : Prop :=
  (∀ b : List Byte, b.length = 5 → unpack8 (pack5 b) = b) ∧
  (∀ g : List Group, g.length = 8 → pack5 (unpack8 g) = g)

/-! ### Host scripts -/

/-- R67: `LOADB` places its bytes in `IBUF[0..]` and their number in `ILEN`, and changes nothing else. -/
def Obligations.LoadBytesPlacesInput : Prop :=
  ∀ (s : State) (bytes : List Byte), s.cfg.Legal → bytes.length ≤ s.cfg.nIn →
    ∃ t, runStmt (.loadb bytes) s = .next t ∧ inputBytes t = bytes ∧
      (∀ a, bytes.length ≤ a → Memory.get t.ibuf a = Memory.get s.ibuf a) ∧
      { t with ibuf := s.ibuf, ilen := s.ilen } = s

/-- R67: with `OLEN <= N_IN`, as the rule requires (log 19 says what the model does above it), `COPYOUT` makes the output
the next input: `ILEN` is `OLEN`, the output bytes stand in `IBUF[0..]`, the other input bytes and the block's results are
as before. -/
def Obligations.CopyOutMovesOutputToInput : Prop :=
  ∀ s : State, s.Inv → s.olen.toNat ≤ s.cfg.nIn →
    ∃ t, runStmt .copyout s = .next t ∧ t.ilen = s.olen ∧
      (∀ i, i < s.olen.toNat → Memory.get t.ibuf i = Memory.get s.obuf i) ∧
      (∀ i, s.olen.toNat ≤ i → Memory.get t.ibuf i = Memory.get s.ibuf i) ∧
      t.obuf = s.obuf ∧ t.olen = s.olen ∧ t.status = s.status ∧ TruncationKept s t ∧
      t.ctrLo = s.ctrLo ∧ t.ctrHi = s.ctrHi ∧ t.cfg = s.cfg

/-- R108, item 1, through the host: for every byte sequence that fits with its encoding, `LOADB`, `B32ENC`, `COPYOUT`,
`B32DEC` ends in success with the byte sequence itself as the output. -/
def Obligations.DecodeOfEncodedInput : Prop :=
  ∀ (s : State) (bytes : List Byte), s.cfg.Legal → bytes.length ≤ s.cfg.nIn →
    8 * ((bytes.length + 4) / 5) ≤ s.cfg.nIn →
    ∃ t, runScript [.loadb bytes, .command .b32enc, .copyout, .command .b32dec] s = .next t ∧
      t.status = 0x00000001#32 ∧ t.olen.toNat = bytes.length ∧ ∀ j, Memory.get t.obuf j = bytes[j]?

/-- R130, steps 4 to 6: `LOADCTR v`, `CTRSER` leaves the 64-bit counter in `OBUF`, big-endian. -/
def Obligations.LoadedCounterIsSerialised : Prop :=
  ∀ (s : State) (v : BitVec 64),
    ∃ t, runScript [.loadctr v, .command .ctrser] s = .next t ∧ t.status = 0x00000001#32 ∧ t.olen = 8#16 ∧
      ∀ i, i < 8 → Memory.get t.obuf i = some (BitVec.ofNat 8 (v.toNat / 256 ^ (7 - i) % 256))

/-- R130, steps 8 to 10: `LOADB` of a 20-byte digest, `HTRUNC L` leaves the last `L` decimal digits of the 31-bit value
that the digest's low nibble selects. -/
def Obligations.LoadedDigestIsTruncated : Prop :=
  ∀ (s : State) (d : List Byte) (l o p : Nat), s.cfg.Legal → d.length = 20 → l ≤ 15 →
    o = (d.getD 19 0#8).toNat % 16 →
    p = (d.getD o 0#8).toNat % 128 * 2 ^ 24 + (d.getD (o + 1) 0#8).toNat * 2 ^ 16 + (d.getD (o + 2) 0#8).toNat * 2 ^ 8
      + (d.getD (o + 3) 0#8).toNat →
    ∃ t, runScript [.loadb d, .command (.htrunc l)] s = .next t ∧ t.status = 0x00000001#32 ∧ t.olen.toNat = l ∧
      t.code.toNat = p % 10 ^ l ∧
      ∀ j, j < l → Memory.get t.obuf j = some (BitVec.ofNat 8 (0x30 + p / 10 ^ (l - 1 - j) % 10))
end

