-- ==== Sys2Proof/Laws/State.lean ====
section
/-! SUPPORT. One lemma per field of `State` and per update of it: what the field is afterwards. -/

namespace Sys2Proof.Machine

/-! ### `succeeded out s` -/

@[simp] theorem succeeded_status_eq (out : List Byte) (s : State) : (succeeded out s).status = statusSuccess := rfl
@[simp] theorem succeeded_ilen_eq (out : List Byte) (s : State) : (succeeded out s).ilen = s.ilen := rfl
@[simp] theorem succeeded_olen_eq (out : List Byte) (s : State) : (succeeded out s).olen = BitVec.ofNat 16 out.length := rfl
@[simp] theorem succeeded_ctrLo_eq (out : List Byte) (s : State) : (succeeded out s).ctrLo = s.ctrLo := rfl
@[simp] theorem succeeded_ctrHi_eq (out : List Byte) (s : State) : (succeeded out s).ctrHi = s.ctrHi := rfl
@[simp] theorem succeeded_offset_eq (out : List Byte) (s : State) : (succeeded out s).offset = s.offset := rfl
@[simp] theorem succeeded_trunc_eq (out : List Byte) (s : State) : (succeeded out s).trunc = s.trunc := rfl
@[simp] theorem succeeded_code_eq (out : List Byte) (s : State) : (succeeded out s).code = s.code := rfl
@[simp] theorem succeeded_ibuf_eq (out : List Byte) (s : State) : (succeeded out s).ibuf = s.ibuf := rfl
@[simp] theorem succeeded_obuf_eq (out : List Byte) (s : State) : (succeeded out s).obuf = Memory.ofBytes out := rfl
@[simp] theorem succeeded_cfg_eq (out : List Byte) (s : State) : (succeeded out s).cfg = s.cfg := rfl
@[simp] theorem succeeded_draws_eq (out : List Byte) (s : State) : (succeeded out s).draws = s.draws + 1 := rfl
@[simp] theorem succeeded_script_eq (out : List Byte) (s : State) : (succeeded out s).script = s.script := rfl
@[simp] theorem succeeded_received_eq (out : List Byte) (s : State) : (succeeded out s).received = s.received := rfl

/-! ### `raised e s` -/

@[simp] theorem raised_status_eq (e : CommandError) (s : State) : (raised e s).status = statusError e := rfl
@[simp] theorem raised_ilen_eq (e : CommandError) (s : State) : (raised e s).ilen = s.ilen := rfl
@[simp] theorem raised_olen_eq (e : CommandError) (s : State) : (raised e s).olen = 0#16 := rfl
@[simp] theorem raised_ctrLo_eq (e : CommandError) (s : State) : (raised e s).ctrLo = s.ctrLo := rfl
@[simp] theorem raised_ctrHi_eq (e : CommandError) (s : State) : (raised e s).ctrHi = s.ctrHi := rfl
@[simp] theorem raised_offset_eq (e : CommandError) (s : State) : (raised e s).offset = s.offset := rfl
@[simp] theorem raised_trunc_eq (e : CommandError) (s : State) : (raised e s).trunc = s.trunc := rfl
@[simp] theorem raised_code_eq (e : CommandError) (s : State) : (raised e s).code = s.code := rfl
@[simp] theorem raised_ibuf_eq (e : CommandError) (s : State) : (raised e s).ibuf = s.ibuf := rfl
@[simp] theorem raised_obuf_eq (e : CommandError) (s : State) : (raised e s).obuf = [] := rfl
@[simp] theorem raised_cfg_eq (e : CommandError) (s : State) : (raised e s).cfg = s.cfg := rfl
@[simp] theorem raised_draws_eq (e : CommandError) (s : State) : (raised e s).draws = s.draws + 1 := rfl
@[simp] theorem raised_script_eq (e : CommandError) (s : State) : (raised e s).script = s.script := rfl
@[simp] theorem raised_received_eq (e : CommandError) (s : State) : (raised e s).received = s.received := rfl

/-! ### `writeTruncation l o p s` -/

@[simp] theorem writeTruncation_status_eq (l o : Nat) (p : Word) (s : State) : (writeTruncation l o p s).status = s.status := rfl
@[simp] theorem writeTruncation_ilen_eq (l o : Nat) (p : Word) (s : State) : (writeTruncation l o p s).ilen = s.ilen := rfl
@[simp] theorem writeTruncation_olen_eq (l o : Nat) (p : Word) (s : State) : (writeTruncation l o p s).olen = s.olen := rfl
@[simp] theorem writeTruncation_ctrLo_eq (l o : Nat) (p : Word) (s : State) : (writeTruncation l o p s).ctrLo = s.ctrLo := rfl
@[simp] theorem writeTruncation_ctrHi_eq (l o : Nat) (p : Word) (s : State) : (writeTruncation l o p s).ctrHi = s.ctrHi := rfl
@[simp] theorem writeTruncation_offset_eq (l o : Nat) (p : Word) (s : State) : (writeTruncation l o p s).offset = BitVec.ofNat 4 o := rfl
@[simp] theorem writeTruncation_trunc_eq (l o : Nat) (p : Word) (s : State) : (writeTruncation l o p s).trunc = p.setWidth 31 := rfl
@[simp] theorem writeTruncation_code_eq (l o : Nat) (p : Word) (s : State) : (writeTruncation l o p s).code = BitVec.ofNat 31 (p.toNat % 10 ^ l) := rfl
@[simp] theorem writeTruncation_ibuf_eq (l o : Nat) (p : Word) (s : State) : (writeTruncation l o p s).ibuf = s.ibuf := rfl
@[simp] theorem writeTruncation_obuf_eq (l o : Nat) (p : Word) (s : State) : (writeTruncation l o p s).obuf = s.obuf := rfl
@[simp] theorem writeTruncation_cfg_eq (l o : Nat) (p : Word) (s : State) : (writeTruncation l o p s).cfg = s.cfg := rfl
@[simp] theorem writeTruncation_draws_eq (l o : Nat) (p : Word) (s : State) : (writeTruncation l o p s).draws = s.draws := rfl
@[simp] theorem writeTruncation_script_eq (l o : Nat) (p : Word) (s : State) : (writeTruncation l o p s).script = s.script := rfl
@[simp] theorem writeTruncation_received_eq (l o : Nat) (p : Word) (s : State) : (writeTruncation l o p s).received = s.received := rfl

/-! ### `receive v s` -/

@[simp] theorem receive_status_eq (v : Word) (s : State) : (receive v s).status = s.status := rfl
@[simp] theorem receive_ilen_eq (v : Word) (s : State) : (receive v s).ilen = s.ilen := rfl
@[simp] theorem receive_olen_eq (v : Word) (s : State) : (receive v s).olen = s.olen := rfl
@[simp] theorem receive_ctrLo_eq (v : Word) (s : State) : (receive v s).ctrLo = s.ctrLo := rfl
@[simp] theorem receive_ctrHi_eq (v : Word) (s : State) : (receive v s).ctrHi = s.ctrHi := rfl
@[simp] theorem receive_offset_eq (v : Word) (s : State) : (receive v s).offset = s.offset := rfl
@[simp] theorem receive_trunc_eq (v : Word) (s : State) : (receive v s).trunc = s.trunc := rfl
@[simp] theorem receive_code_eq (v : Word) (s : State) : (receive v s).code = s.code := rfl
@[simp] theorem receive_ibuf_eq (v : Word) (s : State) : (receive v s).ibuf = s.ibuf := rfl
@[simp] theorem receive_obuf_eq (v : Word) (s : State) : (receive v s).obuf = s.obuf := rfl
@[simp] theorem receive_cfg_eq (v : Word) (s : State) : (receive v s).cfg = s.cfg := rfl
@[simp] theorem receive_draws_eq (v : Word) (s : State) : (receive v s).draws = s.draws + 1 := rfl
@[simp] theorem receive_script_eq (v : Word) (s : State) : (receive v s).script = s.script := rfl
@[simp] theorem receive_received_eq (v : Word) (s : State) : (receive v s).received = v :: s.received := rfl

/-! ### `writeIbuf i b s` -/

@[simp] theorem writeIbuf_status_eq (i : Nat) (b : Byte) (s : State) : (writeIbuf i b s).status = s.status := rfl
@[simp] theorem writeIbuf_ilen_eq (i : Nat) (b : Byte) (s : State) : (writeIbuf i b s).ilen = s.ilen := rfl
@[simp] theorem writeIbuf_olen_eq (i : Nat) (b : Byte) (s : State) : (writeIbuf i b s).olen = s.olen := rfl
@[simp] theorem writeIbuf_ctrLo_eq (i : Nat) (b : Byte) (s : State) : (writeIbuf i b s).ctrLo = s.ctrLo := rfl
@[simp] theorem writeIbuf_ctrHi_eq (i : Nat) (b : Byte) (s : State) : (writeIbuf i b s).ctrHi = s.ctrHi := rfl
@[simp] theorem writeIbuf_offset_eq (i : Nat) (b : Byte) (s : State) : (writeIbuf i b s).offset = s.offset := rfl
@[simp] theorem writeIbuf_trunc_eq (i : Nat) (b : Byte) (s : State) : (writeIbuf i b s).trunc = s.trunc := rfl
@[simp] theorem writeIbuf_code_eq (i : Nat) (b : Byte) (s : State) : (writeIbuf i b s).code = s.code := rfl
@[simp] theorem writeIbuf_ibuf_eq (i : Nat) (b : Byte) (s : State) : (writeIbuf i b s).ibuf = Memory.put s.ibuf i b := rfl
@[simp] theorem writeIbuf_obuf_eq (i : Nat) (b : Byte) (s : State) : (writeIbuf i b s).obuf = s.obuf := rfl
@[simp] theorem writeIbuf_cfg_eq (i : Nat) (b : Byte) (s : State) : (writeIbuf i b s).cfg = s.cfg := rfl
@[simp] theorem writeIbuf_draws_eq (i : Nat) (b : Byte) (s : State) : (writeIbuf i b s).draws = s.draws := rfl
@[simp] theorem writeIbuf_script_eq (i : Nat) (b : Byte) (s : State) : (writeIbuf i b s).script = s.script := rfl
@[simp] theorem writeIbuf_received_eq (i : Nat) (b : Byte) (s : State) : (writeIbuf i b s).received = s.received := rfl

/-! ### `writeReg .ilen v s` -/

@[simp] theorem writeReg_ilen_status_eq (v : Word) (s : State) : (writeReg .ilen v s).status = s.status := rfl
@[simp] theorem writeReg_ilen_ilen_eq (v : Word) (s : State) : (writeReg .ilen v s).ilen = v.setWidth 16 := rfl
@[simp] theorem writeReg_ilen_olen_eq (v : Word) (s : State) : (writeReg .ilen v s).olen = s.olen := rfl
@[simp] theorem writeReg_ilen_ctrLo_eq (v : Word) (s : State) : (writeReg .ilen v s).ctrLo = s.ctrLo := rfl
@[simp] theorem writeReg_ilen_ctrHi_eq (v : Word) (s : State) : (writeReg .ilen v s).ctrHi = s.ctrHi := rfl
@[simp] theorem writeReg_ilen_offset_eq (v : Word) (s : State) : (writeReg .ilen v s).offset = s.offset := rfl
@[simp] theorem writeReg_ilen_trunc_eq (v : Word) (s : State) : (writeReg .ilen v s).trunc = s.trunc := rfl
@[simp] theorem writeReg_ilen_code_eq (v : Word) (s : State) : (writeReg .ilen v s).code = s.code := rfl
@[simp] theorem writeReg_ilen_ibuf_eq (v : Word) (s : State) : (writeReg .ilen v s).ibuf = s.ibuf := rfl
@[simp] theorem writeReg_ilen_obuf_eq (v : Word) (s : State) : (writeReg .ilen v s).obuf = s.obuf := rfl
@[simp] theorem writeReg_ilen_cfg_eq (v : Word) (s : State) : (writeReg .ilen v s).cfg = s.cfg := rfl
@[simp] theorem writeReg_ilen_draws_eq (v : Word) (s : State) : (writeReg .ilen v s).draws = s.draws := rfl
@[simp] theorem writeReg_ilen_script_eq (v : Word) (s : State) : (writeReg .ilen v s).script = s.script := rfl
@[simp] theorem writeReg_ilen_received_eq (v : Word) (s : State) : (writeReg .ilen v s).received = s.received := rfl

/-! ### `writeReg .ctrLo v s` -/

@[simp] theorem writeReg_ctrLo_status_eq (v : Word) (s : State) : (writeReg .ctrLo v s).status = s.status := rfl
@[simp] theorem writeReg_ctrLo_ilen_eq (v : Word) (s : State) : (writeReg .ctrLo v s).ilen = s.ilen := rfl
@[simp] theorem writeReg_ctrLo_olen_eq (v : Word) (s : State) : (writeReg .ctrLo v s).olen = s.olen := rfl
@[simp] theorem writeReg_ctrLo_ctrLo_eq (v : Word) (s : State) : (writeReg .ctrLo v s).ctrLo = v := rfl
@[simp] theorem writeReg_ctrLo_ctrHi_eq (v : Word) (s : State) : (writeReg .ctrLo v s).ctrHi = s.ctrHi := rfl
@[simp] theorem writeReg_ctrLo_offset_eq (v : Word) (s : State) : (writeReg .ctrLo v s).offset = s.offset := rfl
@[simp] theorem writeReg_ctrLo_trunc_eq (v : Word) (s : State) : (writeReg .ctrLo v s).trunc = s.trunc := rfl
@[simp] theorem writeReg_ctrLo_code_eq (v : Word) (s : State) : (writeReg .ctrLo v s).code = s.code := rfl
@[simp] theorem writeReg_ctrLo_ibuf_eq (v : Word) (s : State) : (writeReg .ctrLo v s).ibuf = s.ibuf := rfl
@[simp] theorem writeReg_ctrLo_obuf_eq (v : Word) (s : State) : (writeReg .ctrLo v s).obuf = s.obuf := rfl
@[simp] theorem writeReg_ctrLo_cfg_eq (v : Word) (s : State) : (writeReg .ctrLo v s).cfg = s.cfg := rfl
@[simp] theorem writeReg_ctrLo_draws_eq (v : Word) (s : State) : (writeReg .ctrLo v s).draws = s.draws := rfl
@[simp] theorem writeReg_ctrLo_script_eq (v : Word) (s : State) : (writeReg .ctrLo v s).script = s.script := rfl
@[simp] theorem writeReg_ctrLo_received_eq (v : Word) (s : State) : (writeReg .ctrLo v s).received = s.received := rfl

/-! ### `writeReg .ctrHi v s` -/

@[simp] theorem writeReg_ctrHi_status_eq (v : Word) (s : State) : (writeReg .ctrHi v s).status = s.status := rfl
@[simp] theorem writeReg_ctrHi_ilen_eq (v : Word) (s : State) : (writeReg .ctrHi v s).ilen = s.ilen := rfl
@[simp] theorem writeReg_ctrHi_olen_eq (v : Word) (s : State) : (writeReg .ctrHi v s).olen = s.olen := rfl
@[simp] theorem writeReg_ctrHi_ctrLo_eq (v : Word) (s : State) : (writeReg .ctrHi v s).ctrLo = s.ctrLo := rfl
@[simp] theorem writeReg_ctrHi_ctrHi_eq (v : Word) (s : State) : (writeReg .ctrHi v s).ctrHi = v := rfl
@[simp] theorem writeReg_ctrHi_offset_eq (v : Word) (s : State) : (writeReg .ctrHi v s).offset = s.offset := rfl
@[simp] theorem writeReg_ctrHi_trunc_eq (v : Word) (s : State) : (writeReg .ctrHi v s).trunc = s.trunc := rfl
@[simp] theorem writeReg_ctrHi_code_eq (v : Word) (s : State) : (writeReg .ctrHi v s).code = s.code := rfl
@[simp] theorem writeReg_ctrHi_ibuf_eq (v : Word) (s : State) : (writeReg .ctrHi v s).ibuf = s.ibuf := rfl
@[simp] theorem writeReg_ctrHi_obuf_eq (v : Word) (s : State) : (writeReg .ctrHi v s).obuf = s.obuf := rfl
@[simp] theorem writeReg_ctrHi_cfg_eq (v : Word) (s : State) : (writeReg .ctrHi v s).cfg = s.cfg := rfl
@[simp] theorem writeReg_ctrHi_draws_eq (v : Word) (s : State) : (writeReg .ctrHi v s).draws = s.draws := rfl
@[simp] theorem writeReg_ctrHi_script_eq (v : Word) (s : State) : (writeReg .ctrHi v s).script = s.script := rfl
@[simp] theorem writeReg_ctrHi_received_eq (v : Word) (s : State) : (writeReg .ctrHi v s).received = s.received := rfl

/-! ### `resetEvent s` -/

@[simp] theorem resetEvent_status_eq (s : State) : (resetEvent s).status = 0#32 := rfl
@[simp] theorem resetEvent_ilen_eq (s : State) : (resetEvent s).ilen = 0#16 := rfl
@[simp] theorem resetEvent_olen_eq (s : State) : (resetEvent s).olen = 0#16 := rfl
@[simp] theorem resetEvent_ctrLo_eq (s : State) : (resetEvent s).ctrLo = Config.freeWord s.draws 0x010 := rfl
@[simp] theorem resetEvent_ctrHi_eq (s : State) : (resetEvent s).ctrHi = Config.freeWord s.draws 0x014 := rfl
@[simp] theorem resetEvent_offset_eq (s : State) : (resetEvent s).offset = (Config.freeWord s.draws 0x018).setWidth 4 := rfl
@[simp] theorem resetEvent_trunc_eq (s : State) : (resetEvent s).trunc = (Config.freeWord s.draws 0x01C).setWidth 31 := rfl
@[simp] theorem resetEvent_code_eq (s : State) : (resetEvent s).code = (Config.freeWord s.draws 0x020).setWidth 31 := rfl
@[simp] theorem resetEvent_ibuf_eq (s : State) : (resetEvent s).ibuf = [] := rfl
@[simp] theorem resetEvent_obuf_eq (s : State) : (resetEvent s).obuf = [] := rfl
@[simp] theorem resetEvent_cfg_eq (s : State) : (resetEvent s).cfg = s.cfg := rfl
@[simp] theorem resetEvent_draws_eq (s : State) : (resetEvent s).draws = s.draws + 1 := rfl
@[simp] theorem resetEvent_script_eq (s : State) : (resetEvent s).script = s.script := rfl
@[simp] theorem resetEvent_received_eq (s : State) : (resetEvent s).received = s.received := rfl

/-! ### Writes that store nothing (rules R13 and R46) -/

@[simp] theorem writeReg_cmd_eq (v : Word) (s : State) : writeReg .cmd v s = s := rfl
@[simp] theorem writeReg_status_eq (v : Word) (s : State) : writeReg .status v s = s := rfl
@[simp] theorem writeReg_olen_eq (v : Word) (s : State) : writeReg .olen v s = s := rfl
@[simp] theorem writeReg_offset_eq (v : Word) (s : State) : writeReg .offset v s = s := rfl
@[simp] theorem writeReg_trunc_eq (v : Word) (s : State) : writeReg .trunc v s = s := rfl
@[simp] theorem writeReg_code_eq (v : Word) (s : State) : writeReg .code v s = s := rfl

end Sys2Proof.Machine
end

