-- ==== Sys2Proof/Laws/Memory.lean ====
section
/-! SUPPORT. The laws of a buffer: reading after writing, the canonical form kept by every operation, and equal buffers
as equal data. -/

namespace Sys2Proof.Machine

@[simp] theorem Memory.get_nil (a : Nat) : Memory.get [] a = none := rfl

@[simp] theorem Memory.get_put_same (m : Memory) (a : Nat) (v : Byte) :
    Memory.get (Memory.put m a v) a = some v := by
  induction m with
  | nil => simp [Memory.put, Memory.get]
  | cons c m ih =>
    obtain ⟨k, b⟩ := c
    simp only [Memory.put]
    split_ifs with h₁ h₂
    · simp [Memory.get]
    · simp [Memory.get]
    · simp [Memory.get, Ne.symm h₂, ih]

@[simp] theorem Memory.get_put_other (m : Memory) {a b : Nat} (v : Byte) (h : b ≠ a) :
    Memory.get (Memory.put m a v) b = Memory.get m b := by
  induction m with
  | nil => simp [Memory.put, Memory.get, h.symm]
  | cons c m ih =>
    obtain ⟨k, w⟩ := c
    simp only [Memory.put]
    split_ifs with h₁ h₂
    · simp [Memory.get, h.symm]
    · subst h₂; simp [Memory.get, h.symm]
    · simp [Memory.get, ih]

theorem Memory.mem_keys_put {m : Memory} {a x : Nat} {v : Byte} :
    x ∈ (Memory.put m a v).map Prod.fst ↔ x = a ∨ x ∈ m.map Prod.fst := by
  induction m with
  | nil => simp [Memory.put]
  | cons c m ih =>
    obtain ⟨k, w⟩ := c
    simp only [Memory.put]
    split_ifs with h₁ h₂
    · simp
    · subst h₂; simp
    · simp only [List.map_cons, List.mem_cons, ih]; tauto

/-- A write keeps the canonical form. -/
theorem Memory.wf_put {m : Memory} (h : Memory.wf m) (a : Nat) (v : Byte) : Memory.wf (Memory.put m a v) := by
  induction m with
  | nil => simp [Memory.put, Memory.wf]
  | cons c m ih =>
    obtain ⟨k, w⟩ := c
    simp only [Memory.wf, List.map_cons, List.pairwise_cons] at h
    simp only [Memory.put]
    split_ifs with h₁ h₂
    · simp only [Memory.wf, List.map_cons, List.pairwise_cons, List.mem_cons]
      refine ⟨?_, h.1, h.2⟩
      rintro x (rfl | hx)
      · exact h₁
      · exact h₁.trans (h.1 x hx)
    · subst h₂; simpa [Memory.wf] using h
    · simp only [Memory.wf, List.map_cons, List.pairwise_cons]
      refine ⟨fun x hx => ?_, ih h.2⟩
      rcases Memory.mem_keys_put.mp hx with rfl | hx
      · omega
      · exact h.1 x hx

/-- A write lists no index but its own that was not listed before. -/
theorem Memory.put_bound {m : Memory} {n a : Nat} {v : Byte} (h : ∀ c ∈ m, c.1 < n) (ha : a < n) :
    ∀ c ∈ Memory.put m a v, c.1 < n := by
  intro c hc
  rcases Memory.mem_keys_put.mp (List.mem_map_of_mem (f := Prod.fst) hc) with h' | h'
  · omega
  · obtain ⟨c', hc', he⟩ := List.mem_map.mp h'
    exact he ▸ h c' hc'

theorem Memory.get_eq_none_of_not_mem {m : Memory} {a : Nat} (h : a ∉ m.map Prod.fst) : Memory.get m a = none := by
  induction m with
  | nil => rfl
  | cons c m ih =>
    obtain ⟨k, b⟩ := c
    simp only [List.map_cons, List.mem_cons, not_or] at h
    simp [Memory.get, Ne.symm h.1, ih h.2]

/-- In canonical form, two buffers that read alike are the same data. -/
theorem Memory.ext_get {m n : Memory} (hm : Memory.wf m) (hn : Memory.wf n)
    (h : ∀ a, Memory.get m a = Memory.get n a) : m = n := by
  induction m generalizing n with
  | nil =>
    cases n with
    | nil => rfl
    | cons c n => simpa [Memory.get] using h c.1
  | cons c m ih =>
    obtain ⟨k, b⟩ := c
    cases n with
    | nil => simpa [Memory.get] using h k
    | cons d n =>
      obtain ⟨j, w⟩ := d
      simp only [Memory.wf, List.map_cons, List.pairwise_cons] at hm hn
      have hk : k = j := by
        rcases Nat.lt_trichotomy k j with hlt | heq | hgt
        · have := h k
          rw [Memory.get, if_pos rfl, Memory.get, if_neg (by omega),
            Memory.get_eq_none_of_not_mem fun hx => absurd (hn.1 k hx) (by omega)] at this
          cases this
        · exact heq
        · have := h j
          rw [Memory.get, if_neg (by omega), Memory.get, if_pos rfl,
            Memory.get_eq_none_of_not_mem fun hx => absurd (hm.1 j hx) (by omega)] at this
          cases this
      subst hk
      have hb : b = w := by simpa [Memory.get] using h k
      subst hb
      congr 1
      refine ih hm.2 hn.2 fun a => ?_
      by_cases ha : k = a
      · subst ha
        rw [Memory.get_eq_none_of_not_mem fun hx => absurd (hm.1 k hx) (by omega),
          Memory.get_eq_none_of_not_mem fun hx => absurd (hn.1 k hx) (by omega)]
      · simpa [Memory.get, ha] using h a

theorem Memory.keys_ofBytesFrom (i : Nat) (bs : List Byte) :
    (Memory.ofBytesFrom i bs).map Prod.fst = List.range' i bs.length := by
  induction bs generalizing i with
  | nil => rfl
  | cons b bs ih => simp [Memory.ofBytesFrom, List.range'_succ, ih]

/-- The output of a command lists exactly the indices below its length. -/
@[simp] theorem Memory.keys_ofBytes (bs : List Byte) : (Memory.ofBytes bs).map Prod.fst = List.range bs.length := by
  rw [Memory.ofBytes, Memory.keys_ofBytesFrom, List.range_eq_range']

theorem Memory.wf_ofBytes (bs : List Byte) : Memory.wf (Memory.ofBytes bs) := by
  rw [Memory.wf, Memory.keys_ofBytes]
  exact List.pairwise_lt_range

theorem Memory.get_ofBytesFrom (i : Nat) (bs : List Byte) (j : Nat) :
    Memory.get (Memory.ofBytesFrom i bs) (i + j) = bs[j]? := by
  induction bs generalizing i j with
  | nil => rfl
  | cons b bs ih =>
    cases j with
    | zero => simp [Memory.ofBytesFrom, Memory.get]
    | succ j =>
      have e : i + (j + 1) = i + 1 + j := by omega
      have ne : i ≠ i + 1 + j := by omega
      rw [e, Memory.ofBytesFrom, Memory.get, if_neg ne, ih, List.getElem?_cons_succ]

/-- The byte at `j` of the buffer that lists `bs` is `bs[j]`, if there is one. -/
@[simp] theorem Memory.get_ofBytes (bs : List Byte) (j : Nat) : Memory.get (Memory.ofBytes bs) j = bs[j]? := by
  rw [Memory.ofBytes, ← Memory.get_ofBytesFrom 0 bs j, Nat.zero_add]

end Sys2Proof.Machine
end

