-- ==== Sys2Proof/Laws/Ops.lean ====
section
/-! SUPPORT. What the shared operations can do, said once: the buffers as a command reads and leaves them, the two ends of
a command, a command, a host access and a step. -/

namespace Sys2Proof.Machine

/-! ### Bytes read -/

theorem ibufByte_of_get {s : State} {i : Nat} {b : Byte} (h : Memory.get s.ibuf i = some b) : ibufByte s i = b := by
  simp [ibufByte, h]

theorem obufByte_of_get {s : State} {i : Nat} {b : Byte} (h : Memory.get s.obuf i = some b) : obufByte s i = b := by
  simp [obufByte, h]

@[simp] theorem inputBytes_length (s : State) : (inputBytes s).length = s.ilen.toNat := by
  simp [inputBytes]

theorem inputBytes_getElem (s : State) (i : Nat) (h : i < (inputBytes s).length) :
    (inputBytes s)[i] = ibufByte s i := by
  simp [inputBytes]

/-- After a successful command, `OBUF[j]` is element `j` of the output. -/
theorem obufByte_succeeded {out : List Byte} {s : State} {j : Nat} (h : j < out.length) :
    obufByte (succeeded out s) j = out[j] :=
  obufByte_of_get (by simp [h])

/-! ### The two ends of a command -/

theorem finish_cases {r : Except CommandError (List Byte)} {s t : State} (h : finish r s = .next t) :
    (∃ out, r = .ok out ∧ t = succeeded out s) ∨ ∃ e, r = .error e ∧ t = raised e s := by
  cases r with
  | ok out => exact .inl ⟨out, rfl, by simpa [finish, succeed] using h.symm⟩
  | error e => exact .inr ⟨e, rfl, by simpa [finish, raise] using h.symm⟩

@[simp] theorem finish_ok (out : List Byte) (s : State) : finish (.ok out) s = .next (succeeded out s) := rfl

@[simp] theorem finish_error (e : CommandError) (s : State) : finish (.error e) s = .next (raised e s) := rfl

/-- Everything a command can do: it raises one error, or it succeeds with an output, from its state or (for `HTRUNC`) from
the state with the truncation registers written. -/
theorem exec_cases (i : Instr) (s : State) :
    (∃ e, exec i s = .next (raised e s)) ∨
    (∃ out, exec i s = .next (succeeded out s)) ∨
    (∃ l o p out, i = .htrunc l ∧ exec i s = .next (succeeded out (writeTruncation l o p s))) := by
  cases i with
  | b32encc =>
    simp only [exec, execB32encc]; split
    · exact .inr (.inl ⟨_, rfl⟩)
    · exact .inl ⟨_, rfl⟩
  | b32decc =>
    simp only [exec, execB32decc]; split
    · cases (chunkGroups (inputBytes s)).map unpack8 with
      | ok out => exact .inr (.inl ⟨out, rfl⟩)
      | error e => exact .inl ⟨e, rfl⟩
    · exact .inl ⟨_, rfl⟩
  | b32enc =>
    simp only [exec, execB32enc]; split
    · exact .inr (.inl ⟨_, rfl⟩)
    · exact .inl ⟨_, rfl⟩
  | b32dec =>
    simp only [exec, execB32dec]; split
    · cases decodeChars (inputBytes s) with
      | ok out => exact .inr (.inl ⟨out, rfl⟩)
      | error e => exact .inl ⟨e, rfl⟩
    · exact .inl ⟨_, rfl⟩
  | ctrser => exact .inr (.inl ⟨_, rfl⟩)
  | htrunc l =>
    simp only [exec, execHtrunc]; split
    · exact .inr (.inr ⟨_, _, _, _, rfl, rfl⟩)
    · exact .inl ⟨_, rfl⟩

/-! ### Where an access goes -/

theorem locate_reg (c : Config) (r : Reg) : locate c (regAddr c r) 4 = .register r := by
  have h : regOffset r < windowBytes := by cases r <;> decide
  rw [locate, if_pos ⟨Nat.le_add_right _ _, by rw [regAddr]; omega⟩]
  simp only [regAddr, Nat.add_sub_cancel_left]
  cases r <;> rfl

theorem locate_input {c : Config} {i : Nat} (hc : c.Legal) (h : i < c.nIn) :
    locate c (c.base + ibufOffset + i) 1 = .input i := by
  obtain ⟨-, -, h₁, -, -⟩ := hc
  have e : c.base + ibufOffset + i - c.base = ibufOffset + i := by omega
  simp only [ibufOffset] at e ⊢
  rw [locate, if_pos ⟨by omega, by simp only [windowBytes]; omega⟩, e, locateOffset, if_neg (by omega),
    if_neg (by simp only [ibufOffset]; omega), if_pos (by simp only [ibufOffset]; omega), if_pos rfl]
  simp [ibufOffset]

theorem locate_output {c : Config} {i : Nat} (hc : c.Legal) (h : i < c.nOut) :
    locate c (c.base + obufOffset + i) 1 = .output i := by
  obtain ⟨-, -, h₁, -, h₂⟩ := hc
  have e : c.base + obufOffset + i - c.base = obufOffset + i := by omega
  simp only [obufOffset] at e ⊢
  rw [locate, if_pos ⟨by omega, by simp only [windowBytes]; omega⟩, e, locateOffset, if_neg (by omega),
    if_neg (by simp only [ibufOffset]; omega), if_neg (by simp only [ibufOffset]; omega),
    if_neg (by simp only [obufOffset]; omega), if_pos (by simp only [obufOffset]; omega), if_pos rfl]
  simp [obufOffset]

/-- An input place lies inside the input buffer. -/
theorem lt_nIn_of_locate {c : Config} {addr n i : Nat} (h : locate c addr n = .input i) : i < c.nIn := by
  unfold locate locateOffset at h
  split_ifs at h
  simp_all
  omega

/-! ### Host accesses and steps -/

@[simp] theorem perform_readReg (s : State) (r : Reg) :
    perform (.memRead (regAddr s.cfg r) 4) s = .next (receive (readReg s r) s) := by
  simp [perform, memRead, locate_reg]

@[simp] theorem perform_writeReg (s : State) (r : Reg) (v : Word) :
    perform (.memWrite (regAddr s.cfg r) 4 v) s = regWrite r v s := by
  simp [perform, memWrite, locate_reg]

theorem perform_writeInput {s : State} (hc : s.cfg.Legal) {i : Nat} (h : i < s.cfg.nIn) (v : Word) :
    perform (.memWrite (s.cfg.base + ibufOffset + i) 1 v) s = .next (writeIbuf i (v.setWidth 8) s) := by
  simp [perform, memWrite, locate_input hc h]

theorem perform_readInput {s : State} (hc : s.cfg.Legal) {i : Nat} (h : i < s.cfg.nIn) :
    perform (.memRead (s.cfg.base + ibufOffset + i) 1) s = .next (receive ((ibufByte s i).setWidth 32) s) := by
  simp [perform, memRead, locate_input hc h]

theorem perform_readOutput {s : State} (hc : s.cfg.Legal) {i : Nat} (h : i < s.cfg.nOut) :
    perform (.memRead (s.cfg.base + obufOffset + i) 1) s = .next (receive ((obufByte s i).setWidth 32) s) := by
  simp [perform, memRead, locate_output hc h]

theorem perform_writeOutput {s : State} (hc : s.cfg.Legal) {i : Nat} (h : i < s.cfg.nOut) (v : Word) :
    perform (.memWrite (s.cfg.base + obufOffset + i) 1 v) s = .next s := by
  simp [perform, memWrite, locate_output hc h]

/-- Everything a host step can do when it answers a next state: return a value, store into an operand register or an input
byte, change nothing, run a command, fail on an illegal word, or reset. -/
theorem perform_cases {h : HostStep} {s t : State} (hp : perform h s = .next t) :
    (∃ v, t = receive v s) ∨
    (∃ r v, t = writeReg r v s) ∨
    (∃ i b, i < s.cfg.nIn ∧ t = writeIbuf i b s) ∨
    (∃ w i, decode w = .command i ∧ exec i s = .next t) ∨
    t = raised .illegalCommand s ∨
    t = resetEvent s := by
  cases h with
  | memRead addr n =>
    simp only [perform, memRead] at hp
    split at hp <;> simp at hp <;> exact .inl ⟨_, hp.symm⟩
  | memWrite addr n v =>
    simp only [perform, memWrite] at hp
    split at hp
    · rename_i r _
      cases r with
      | cmd =>
        simp only [regWrite, commandFrame] at hp
        split at hp
        · rename_i i hi
          exact .inr (.inr (.inr (.inl ⟨v, i, hi, hp⟩)))
        · simp only [raise, Host.Outcome.next.injEq] at hp
          exact .inr (.inr (.inr (.inr (.inl hp.symm))))
      | _ => simp only [regWrite, Host.Outcome.next.injEq] at hp; exact .inr (.inl ⟨_, v, hp.symm⟩)
    · rename_i i hi
      simp only [Host.Outcome.next.injEq] at hp
      exact .inr (.inr (.inl ⟨i, _, lt_nIn_of_locate hi, hp.symm⟩))
    · simp only [Host.Outcome.next.injEq] at hp
      exact .inr (.inl ⟨.status, v, hp.symm⟩)
    all_goals simp at hp
  | reset =>
    simp only [perform, Host.Outcome.next.injEq] at hp
    exact .inr (.inr (.inr (.inr (.inr hp.symm))))

/-- A step does the first thing that the host has to do; with nothing to do it changes nothing. -/
theorem step_cases {s t : State} (h : step s = .next t) :
    (s.script = [] ∧ t = s) ∨
    ∃ a rest, s.script = a :: rest ∧ perform a { s with script := rest } = .next t := by
  simp only [step, hostTurn] at h
  split at h
  · rename_i hs
    simp only [Host.Outcome.next.injEq] at h
    exact .inl ⟨hs, h.symm⟩
  · rename_i a rest hs
    exact .inr ⟨a, rest, hs, h⟩

end Sys2Proof.Machine
end

