-- ==== Sys2Proof/Laws/Codec.lean ====
section
/-! SUPPORT. The lengths of what the codec and the truncation unit put out, and the equations their recursions unfold
with. -/

namespace Sys2Proof.Machine

@[simp] theorem pack5_length (b : List Byte) : (pack5 b).length = 8 := by simp [pack5]

@[simp] theorem unpack8_length (g : List Group) : (unpack8 g).length = 5 := by simp [unpack8]

@[simp] theorem chunkSymbols_length (b : List Byte) : (chunkSymbols b).length = 8 := by simp [chunkSymbols]

/-! ### The 40-bit value of a chunk, as a number -/

theorem toNat_shift_or {k : Nat} (v : BitVec 40) (x : BitVec k) (h : v.toNat * 2 ^ k + x.toNat < 2 ^ 40) :
    ((v <<< k) ||| x.setWidth 40).toNat = v.toNat * 2 ^ k + x.toNat := by
  have hx : x.toNat < 2 ^ k := x.isLt
  have hx' : x.toNat < 2 ^ 40 := by omega
  rw [BitVec.toNat_or, BitVec.toNat_shiftLeft, BitVec.toNat_setWidth, Nat.mod_eq_of_lt hx',
    Nat.mod_eq_of_lt (by rw [Nat.shiftLeft_eq]; omega), ← Nat.shiftLeft_add_eq_or_of_lt hx, Nat.shiftLeft_eq]

/-- Five bytes as one number, the first most significant (rule R86). -/
theorem bytesValue_toNat (b0 b1 b2 b3 b4 : Byte) :
    (bytesValue [b0, b1, b2, b3, b4]).toNat =
      (((b0.toNat * 2 ^ 8 + b1.toNat) * 2 ^ 8 + b2.toNat) * 2 ^ 8 + b3.toNat) * 2 ^ 8 + b4.toNat := by
  have := b0.isLt; have := b1.isLt; have := b2.isLt; have := b3.isLt; have := b4.isLt
  simp only [bytesValue, List.foldl_cons, List.foldl_nil]
  have e0 := toNat_shift_or 0#40 b0 (by simp; omega)
  simp only [BitVec.toNat_ofNat, Nat.zero_mod, Nat.zero_mul, Nat.zero_add] at e0
  have e1 := toNat_shift_or _ b1 (by rw [e0]; omega)
  have e2 := toNat_shift_or _ b2 (by rw [e1, e0]; omega)
  have e3 := toNat_shift_or _ b3 (by rw [e2, e1, e0]; omega)
  have e4 := toNat_shift_or _ b4 (by rw [e3, e2, e1, e0]; omega)
  rw [e4, e3, e2, e1, e0]

/-- Eight groups as one number, the first most significant (rule R87). -/
theorem groupsValue_toNat (g0 g1 g2 g3 g4 g5 g6 g7 : Group) :
    (groupsValue [g0, g1, g2, g3, g4, g5, g6, g7]).toNat =
      ((((((g0.toNat * 2 ^ 5 + g1.toNat) * 2 ^ 5 + g2.toNat) * 2 ^ 5 + g3.toNat) * 2 ^ 5 + g4.toNat) * 2 ^ 5
        + g5.toNat) * 2 ^ 5 + g6.toNat) * 2 ^ 5 + g7.toNat := by
  have := g0.isLt; have := g1.isLt; have := g2.isLt; have := g3.isLt
  have := g4.isLt; have := g5.isLt; have := g6.isLt; have := g7.isLt
  simp only [groupsValue, List.foldl_cons, List.foldl_nil]
  have e0 := toNat_shift_or 0#40 g0 (by simp; omega)
  simp only [BitVec.toNat_ofNat, Nat.zero_mod, Nat.zero_mul, Nat.zero_add] at e0
  have e1 := toNat_shift_or _ g1 (by rw [e0]; omega)
  have e2 := toNat_shift_or _ g2 (by rw [e1, e0]; omega)
  have e3 := toNat_shift_or _ g3 (by rw [e2, e1, e0]; omega)
  have e4 := toNat_shift_or _ g4 (by rw [e3, e2, e1, e0]; omega)
  have e5 := toNat_shift_or _ g5 (by rw [e4, e3, e2, e1, e0]; omega)
  have e6 := toNat_shift_or _ g6 (by rw [e5, e4, e3, e2, e1, e0]; omega)
  have e7 := toNat_shift_or _ g7 (by rw [e6, e5, e4, e3, e2, e1, e0]; omega)
  rw [e7, e6, e5, e4, e3, e2, e1, e0]

/-- A group of a packed chunk, as a number (rule R86). -/
theorem pack5_getElem_toNat (b : List Byte) (k : Nat) (h : k < (pack5 b).length) :
    ((pack5 b)[k]).toNat = (bytesValue b).toNat / 2 ^ (35 - 5 * k) % 2 ^ 5 := by
  simp [pack5, BitVec.extractLsb'_toNat, Nat.shiftRight_eq_div_pow]

/-- A byte of an unpacked window, as a number (rule R87). -/
theorem unpack8_getElem_toNat (g : List Group) (j : Nat) (h : j < (unpack8 g).length) :
    ((unpack8 g)[j]).toNat = (groupsValue g).toNat / 2 ^ (32 - 8 * j) % 2 ^ 8 := by
  simp [unpack8, BitVec.extractLsb'_toNat, Nat.shiftRight_eq_div_pow]

/-! ### Lengths -/

theorem nsym_le (n : Nat) : nsym n ≤ 8 := by
  unfold nsym; split <;> omega

@[simp] theorem partialSymbols_length (b : List Byte) : (partialSymbols b).length = 8 := by
  have := nsym_le b.length
  simp [partialSymbols]; omega

@[simp] theorem counterBytes_length (c : BitVec 64) : (counterBytes c).length = 8 := by simp [counterBytes]

theorem encodeBytes_chunk (b0 b1 b2 b3 b4 : Byte) (rest : List Byte) :
    encodeBytes (b0 :: b1 :: b2 :: b3 :: b4 :: rest) = chunkSymbols [b0, b1, b2, b3, b4] ++ encodeBytes rest := rfl

/-- A byte sequence is empty, a partial chunk, or a full chunk and the rest: the cases of the encoder. -/
theorem chunk_induction {P : List Byte → Prop} (nil : P []) (one : ∀ a, P [a]) (two : ∀ a b, P [a, b])
    (three : ∀ a b c, P [a, b, c]) (four : ∀ a b c d, P [a, b, c, d])
    (full : ∀ a b c d e rest, P rest → P (a :: b :: c :: d :: e :: rest)) : ∀ bs, P bs
  | [] => nil
  | [a] => one a
  | [a, b] => two a b
  | [a, b, c] => three a b c
  | [a, b, c, d] => four a b c d
  | a :: b :: c :: d :: e :: rest =>
    full a b c d e rest (chunk_induction nil one two three four full rest)

/-- `OLEN` of `B32ENC` on `n` bytes is `8 * ceil(n/5)` (rule R110). -/
@[simp] theorem encodeBytes_length (bs : List Byte) : (encodeBytes bs).length = 8 * ((bs.length + 4) / 5) := by
  induction bs using chunk_induction with
  | nil => rfl
  | one => simp [encodeBytes]
  | two => simp [encodeBytes]
  | three => simp [encodeBytes]
  | four => simp [encodeBytes]
  | full a b c d e rest ih => rw [encodeBytes_chunk]; simp [ih]; omega

@[simp] theorem padSymbol_class : classOf padSymbol = .pad := by decide

theorem sym_class (g : Group) : classOf (sym g) = .data := by revert g; decide

theorem scanChars_ws {sc : Scan} {c : Byte} {cs : List Byte} (h : classOf c = .ws) :
    scanChars sc (c :: cs) = scanChars sc cs := by
  simp [scanChars, scanChar, h]

theorem scanChars_bad {sc : Scan} {c : Byte} {cs : List Byte} (h : classOf c = .bad) :
    scanChars sc (c :: cs) = .error .invalidCharacter := by
  simp [scanChars, scanChar, h]

theorem numeralUpTo_length_pos (k p : Nat) : 0 < (numeralUpTo (k + 1) p).length := by
  unfold numeralUpTo; split <;> simp

/-- A numeral has at most as many digits as it is allowed. -/
theorem numeralUpTo_length_le (k p : Nat) : (numeralUpTo k p).length ≤ k := by
  induction k generalizing p with
  | zero => simp [numeralUpTo]
  | succ k ih =>
    unfold numeralUpTo
    split
    · simp
    · simpa using ih (p / 10)

/-- `HTRUNC L` puts out exactly `L` characters. -/
@[simp] theorem codeDigits_length (l p : Nat) : (codeDigits l p).length = l := by
  have : l ≤ (paddedNumeral l p).length := by simp [paddedNumeral]; omega
  simp [codeDigits]; omega

end Sys2Proof.Machine
end

