-- ==== Sys2Proof/Laws/Decode.lean ====
section
/-! SUPPORT. The fields of a command word as numbers, the word they are put together to, and everything that decoding to
a command says of a word. -/

namespace Sys2Proof

theorem opcOf_toNat (w : Word) : (opcOf w).toNat = w.toNat % 2 ^ 8 := by
  simp [opcOf, BitVec.extractLsb'_toNat]

theorem argOf_toNat (w : Word) : (argOf w).toNat = w.toNat / 2 ^ 8 % 16 := by
  simp [argOf, BitVec.extractLsb'_toNat, Nat.shiftRight_eq_div_pow]

theorem rsvOf_toNat (w : Word) : (rsvOf w).toNat = w.toNat / 2 ^ 12 := by
  have := w.isLt
  simp only [rsvOf, BitVec.extractLsb'_toNat, Nat.shiftRight_eq_div_pow]
  omega

theorem packFields_toNat (r : BitVec 20) (a : BitVec 4) (o : BitVec 8) :
    (packFields r a o).toNat = r.toNat * 2 ^ 12 + a.toNat * 2 ^ 8 + o.toNat := by
  rw [packFields, BitVec.toNat_append, BitVec.toNat_append, ← Nat.shiftLeft_add_eq_or_of_lt a.isLt,
    ← Nat.shiftLeft_add_eq_or_of_lt o.isLt, Nat.shiftLeft_eq, Nat.shiftLeft_eq]
  ring

@[simp] theorem opcOf_packFields (r : BitVec 20) (a : BitVec 4) (o : BitVec 8) : opcOf (packFields r a o) = o := by
  apply BitVec.eq_of_toNat_eq
  have := o.isLt
  rw [opcOf_toNat, packFields_toNat]; omega

@[simp] theorem argOf_packFields (r : BitVec 20) (a : BitVec 4) (o : BitVec 8) : argOf (packFields r a o) = a := by
  apply BitVec.eq_of_toNat_eq
  have := o.isLt; have := a.isLt
  rw [argOf_toNat, packFields_toNat]; omega

@[simp] theorem rsvOf_packFields (r : BitVec 20) (a : BitVec 4) (o : BitVec 8) : rsvOf (packFields r a o) = r := by
  apply BitVec.eq_of_toNat_eq
  have := o.isLt; have := a.isLt
  rw [rsvOf_toNat, packFields_toNat]; omega

/-- A word is its three fields. -/
theorem packFields_fields (w : Word) : packFields (rsvOf w) (argOf w) (opcOf w) = w := by
  apply BitVec.eq_of_toNat_eq
  rw [packFields_toNat, rsvOf_toNat, argOf_toNat, opcOf_toNat]; omega

/-- What a word is when it decodes to a command. -/
theorem decode_command_cases {w : Word} {i : Instr} (h : decode w = .command i) :
    rsvOf w = 0#20 ∧
    ((opcOf w = 0x10#8 ∧ argOf w = 0#4 ∧ i = .b32encc) ∨ (opcOf w = 0x11#8 ∧ argOf w = 0#4 ∧ i = .b32decc) ∨
      (opcOf w = 0x12#8 ∧ argOf w = 0#4 ∧ i = .b32enc) ∨ (opcOf w = 0x13#8 ∧ argOf w = 0#4 ∧ i = .b32dec) ∨
      (opcOf w = 0x20#8 ∧ argOf w = 0#4 ∧ i = .ctrser) ∨ (opcOf w = 0x21#8 ∧ i = .htrunc (argOf w).toNat)) := by
  unfold decode decodeFormatN at h
  split_ifs at h <;> simp_all

end Sys2Proof
end

