-- ==== Sys2Proof/Laws/Digits.lean ====
section
/-! SUPPORT. The numbers that `HTRUNC` works with: the truncated value of a digest (rule R124) and the digits of a padded
numeral (rule R125). -/

namespace Sys2Proof.Machine

theorem mul_pow_or {k : Nat} (a b : Nat) (h : b < 2 ^ k) : a * 2 ^ k ||| b = a * 2 ^ k + b := by
  rw [← Nat.shiftLeft_eq, Nat.shiftLeft_add_eq_or_of_lt h]

/-- `P` of rule R124 as a number. -/
theorem truncatedValue_toNat (d : List Byte) (o : Nat) :
    (truncatedValue d o).toNat = (d.getD o 0#8).toNat % 128 * 2 ^ 24 + (d.getD (o + 1) 0#8).toNat * 2 ^ 16
      + (d.getD (o + 2) 0#8).toNat * 2 ^ 8 + (d.getD (o + 3) 0#8).toNat := by
  unfold truncatedValue
  generalize d.getD o 0#8 = a
  generalize d.getD (o + 1) 0#8 = b
  generalize d.getD (o + 2) 0#8 = c
  generalize d.getD (o + 3) 0#8 = e
  have := a.isLt; have := b.isLt; have := c.isLt; have := e.isLt
  have a127 : ∀ n, n &&& 127 = n % 128 := fun n => Nat.and_two_pow_sub_one_eq_mod n 7
  have m : ∀ n, n < 2 ^ 32 → n % 2 ^ 32 = n := fun n h => Nat.mod_eq_of_lt h
  simp only [BitVec.toNat_setWidth, BitVec.toNat_or, BitVec.toNat_and, BitVec.toNat_shiftLeft, BitVec.toNat_ofNat,
    Nat.shiftLeft_eq, a127]
  rw [m a.toNat (by omega), m b.toNat (by omega), m c.toNat (by omega), m e.toNat (by omega), m _ (by omega),
    m (b.toNat * 2 ^ 16) (by omega), m (c.toNat * 2 ^ 8) (by omega), mul_pow_or _ _ (by omega),
    show a.toNat % 128 * 2 ^ 24 + b.toNat * 2 ^ 16 = (a.toNat % 128 * 2 ^ 8 + b.toNat) * 2 ^ 16 by ring,
    mul_pow_or _ _ (by omega),
    show (a.toNat % 128 * 2 ^ 8 + b.toNat) * 2 ^ 16 + c.toNat * 2 ^ 8
      = ((a.toNat % 128 * 2 ^ 8 + b.toNat) * 2 ^ 8 + c.toNat) * 2 ^ 8 by ring,
    mul_pow_or _ _ (by omega)]

theorem numeralUpTo_small (k : Nat) {p : Nat} (h : p < 10) : numeralUpTo (k + 1) p = [digitChar p] := by
  simp [numeralUpTo, h]

/-- The digit of weight `10^e` in a one-digit numeral padded with `m` zeros. -/
theorem padded_small (m e : Nat) {p : Nat} (h : p < 10) (he : e < m + 1) :
    (List.replicate m (digitChar 0) ++ [digitChar p])[m + 1 - 1 - e]? = some (digitChar (p / 10 ^ e % 10)) := by
  rcases Nat.eq_zero_or_pos e with rfl | h0
  · rw [List.getElem?_append_right (by simp)]
    simp [Nat.mod_eq_of_lt h]
  · rw [List.getElem?_append_left (by simp; omega), List.getElem?_replicate, if_pos (by omega)]
    have hz : p / 10 ^ e = 0 := Nat.div_eq_of_lt (lt_of_lt_of_le h (by
      calc 10 = 10 ^ 1 := rfl
        _ ≤ 10 ^ e := Nat.pow_le_pow_right (by omega) h0))
    simp [hz]

/-- The digit of weight `10^e` in a numeral padded with `m` zeros (rule R125). -/
theorem padded_getElem? (k : Nat) : ∀ (p m e : Nat), p < 10 ^ (k + 1) → e < m + (numeralUpTo (k + 1) p).length →
    (List.replicate m (digitChar 0) ++ numeralUpTo (k + 1) p)[m + (numeralUpTo (k + 1) p).length - 1 - e]?
      = some (digitChar (p / 10 ^ e % 10)) := by
  induction k with
  | zero =>
    intro p m e hp he
    have h10 : p < 10 := by simpa using hp
    rw [numeralUpTo_small 0 h10] at he ⊢
    exact padded_small m e h10 he
  | succ k ih =>
    intro p m e hp he
    by_cases h10 : p < 10
    · rw [numeralUpTo_small (k + 1) h10] at he ⊢
      exact padded_small m e h10 he
    · have hn : numeralUpTo (k + 1 + 1) p = numeralUpTo (k + 1) (p / 10) ++ [digitChar (p % 10)] := by
        conv_lhs => unfold numeralUpTo
        simp [h10]
      rw [hn] at he ⊢
      simp only [List.length_append, List.length_singleton] at he ⊢
      rw [← List.append_assoc]
      rcases Nat.eq_zero_or_pos e with rfl | h0
      · rw [List.getElem?_append_right (by simp)]
        simp
      · rw [List.getElem?_append_left (by simp; omega)]
        have hp' : p / 10 < 10 ^ (k + 1) := by
          rw [Nat.div_lt_iff_lt_mul (by omega)]
          calc p < 10 ^ (k + 1 + 1) := hp
            _ = 10 ^ (k + 1) * 10 := by ring
        have hi := ih (p / 10) m (e - 1) hp' (by omega)
        have he' : m + ((numeralUpTo (k + 1) (p / 10)).length + 1) - 1 - e
            = m + (numeralUpTo (k + 1) (p / 10)).length - 1 - (e - 1) := by omega
        have hpow : 10 * 10 ^ (e - 1) = 10 ^ e := by rw [← Nat.pow_succ']; congr 1; omega
        rw [he', hi, Nat.div_div_eq_div_mul, hpow]

/-- The closed form of rule R124: character `j` of the code is the digit of weight `10^(l-1-j)`. -/
theorem codeDigits_getElem? {l p j : Nat} (hp : p < 2 ^ 31) (hj : j < l) :
    (codeDigits l p)[j]? = some (digitChar (p / 10 ^ (l - 1 - j) % 10)) := by
  have h10 : p < 10 ^ (9 + 1) := by norm_num; omega
  have key := padded_getElem? 9 p (l - (decimalNumeral p).length) (l - 1 - j) h10 (by
    show _ < _ + (decimalNumeral p).length; omega)
  have hlen : (paddedNumeral l p).length = l - (decimalNumeral p).length + (decimalNumeral p).length := by
    simp [paddedNumeral]
  have he : l - (decimalNumeral p).length + (decimalNumeral p).length - l + j
      = l - (decimalNumeral p).length + (numeralUpTo (9 + 1) p).length - 1 - (l - 1 - j) := by
    show _ = _ + (decimalNumeral p).length - 1 - _
    omega
  rw [codeDigits, List.getElem?_drop, hlen, he]
  exact key

end Sys2Proof.Machine
end

