-- ==== Sys2Proof/Laws/PerInstr.lean ====
section
/-! SUPPORT. Statements for every command, one lemma per constructor. -/

namespace Sys2Proof.Laws

/-- An `HTRUNC` is well-formed when its code length fits the field (rule R66). -/
theorem htrunc_wellFormed {l : Nat} : (Instr.htrunc l).WellFormed ↔ l ≤ 15 := decide_eq_true_iff

/-- The word of a well-formed command is one its row of the opcode table matches: `(w & mask) == match` (rule R62). -/
def WordShape.Statement (i : Instr) : Prop :=
  i.WellFormed → encode i &&& i.maskWord = i.matchWord

theorem WordShape.b32encc : WordShape.Statement .b32encc := fun _ => by decide

theorem WordShape.b32decc : WordShape.Statement .b32decc := fun _ => by decide

theorem WordShape.b32enc : WordShape.Statement .b32enc := fun _ => by decide

theorem WordShape.b32dec : WordShape.Statement .b32dec := fun _ => by decide

theorem WordShape.ctrser : WordShape.Statement .ctrser := fun _ => by decide

theorem WordShape.htrunc (l : Nat) : WordShape.Statement (.htrunc l) := fun h => by
  have hl : l < 16 := Nat.lt_succ_of_le (htrunc_wellFormed.mp h)
  have : ∀ k : Fin 16, encode (.htrunc k.val) &&& (Instr.htrunc k.val).maskWord = (Instr.htrunc k.val).matchWord := by
    decide
  exact this ⟨l, hl⟩

end Sys2Proof.Laws
end

