-- ==== Sys2Proof/Laws/Scan.lean ====
section
/-! SUPPORT. What the scan of `B32DEC` (rule R104) can do, said once: it ignores whitespace, it reads clean windows into
their bytes, and on characters that it accepts it either ends in `InvalidPadding` or has read clean windows. -/

namespace Sys2Proof.Machine

/-- The scan without its last check: the state it has reached, or its first error. -/
def scanRun : Scan → List Byte → Except CommandError Scan
  | sc, [] => .ok sc
  | sc, c :: cs =>
    match scanChar sc c with
    | .ok sc' => scanRun sc' cs
    | .error e => .error e

/-- The check after the last character (rule R104). -/
def scanEnd : Except CommandError Scan → Except CommandError (List Byte)
  | .ok sc => if sc.win.length ≠ 0 then .error .invalidPadding else .ok sc.out
  | .error e => .error e

/-- A character that is pushed into the window. -/
abbrev Accepted (c : Byte) : Prop := classOf c = .data ∨ classOf c = .pad

theorem scanChars_eq_scanEnd (sc : Scan) (cs : List Byte) : scanChars sc cs = scanEnd (scanRun sc cs) := by
  induction cs generalizing sc with
  | nil => rfl
  | cons c cs ih =>
    simp only [scanChars, scanRun]
    cases scanChar sc c with
    | ok sc' => exact ih sc'
    | error e => rfl

theorem scanRun_append (sc : Scan) (a b : List Byte) :
    scanRun sc (a ++ b) = match scanRun sc a with
      | .ok sc' => scanRun sc' b
      | .error e => .error e := by
  induction a generalizing sc with
  | nil => rfl
  | cons c cs ih =>
    simp only [List.cons_append, scanRun]
    cases scanChar sc c with
    | ok sc' => exact ih sc'
    | error e => rfl

/-- Whitespace is removed wherever it stands. -/
theorem scanRun_stripped (sc : Scan) (cs : List Byte) : scanRun sc cs = scanRun sc (stripped cs) := by
  induction cs generalizing sc with
  | nil => rfl
  | cons c cs ih =>
    by_cases h : classOf c = .ws
    · have e : stripped (c :: cs) = stripped cs := by simp [stripped, h]
      rw [e, ← ih]; simp [scanRun, scanChar, h]
    · have e : stripped (c :: cs) = c :: stripped cs := by simp [stripped, h]
      rw [e]
      simp only [scanRun]
      cases scanChar sc c with
      | ok sc' => exact ih sc'
      | error e => rfl

theorem stripped_length_le (cs : List Byte) : (stripped cs).length ≤ cs.length := List.length_filter_le _ _

theorem accepted_of_class {c : Byte} (h₁ : classOf c ≠ .ws) (h₂ : classOf c ≠ .bad) : Accepted c := by
  cases h : classOf c <;> simp_all [Accepted]

theorem accepted_of_mem_stripped {cs : List Byte} (h : ∀ c ∈ cs, classOf c ≠ .bad) : ∀ c ∈ stripped cs, Accepted c := by
  intro c hc
  simp only [stripped, List.mem_filter, decide_eq_true_eq] at hc
  exact accepted_of_class hc.2 (h c hc.1)

theorem scanChar_accepted {sc : Scan} {c : Byte} (h : Accepted c) : scanChar sc c = pushChar sc c := by
  rcases h with h | h <;> simp [scanChar, h]

/-! ### One window -/

/-- Fewer than 8 characters only fill the window. -/
theorem scanRun_short (out win cs : List Byte) (h : ∀ c ∈ cs, Accepted c) (hl : win.length + cs.length < 8) :
    scanRun ⟨out, win, false⟩ cs = .ok ⟨out, win ++ cs, false⟩ := by
  induction cs generalizing win with
  | nil => simp [scanRun]
  | cons c cs ih =>
    simp only [List.length_cons] at hl
    have hp : pushChar ⟨out, win, false⟩ c = .ok ⟨out, win ++ [c], false⟩ := by
      simp [pushChar]; omega
    simp only [scanRun, scanChar_accepted (h c (by simp)), hp]
    rw [ih (win ++ [c]) (fun x hx => h x (by simp [hx])) (by simp; omega)]
    simp

theorem eq_of_length_eight {α : Type} {l : List α} (h : l.length = 8) :
    ∃ a b c d e f g i, l = [a, b, c, d, e, f, g, i] := by
  match l, h with
  | [a, b, c, d, e, f, g, i], _ => exact ⟨a, b, c, d, e, f, g, i, rfl⟩

/-- The eighth character closes the window. -/
theorem scanRun_window (out w : List Byte) (h : ∀ c ∈ w, Accepted c) (hl : w.length = 8) :
    ∃ v, scanRun ⟨out, [], false⟩ w = closeWindow ⟨out, v, false⟩ w := by
  obtain ⟨a, b, c, d, e, f, g, i, rfl⟩ := eq_of_length_eight hl
  refine ⟨[a, b, c, d, e, f, g], ?_⟩
  rw [show [a, b, c, d, e, f, g, i] = [a, b, c, d, e, f, g] ++ [i] from rfl, scanRun_append,
    scanRun_short _ _ _ (fun x hx => h x (by simp at hx ⊢; tauto)) (by simp)]
  simp only [scanRun, List.nil_append, scanChar_accepted (h i (by simp)), pushChar, List.length_append, List.length_cons,
    List.length_nil, if_true, Bool.false_eq_true, if_false]
  cases closeWindow ⟨out, [a, b, c, d, e, f, g], false⟩ ([a, b, c, d, e, f, g] ++ [i]) <;> rfl

/-- Nothing that is accepted may follow the final window. -/
theorem scanRun_after_final (out : List Byte) (cs : List Byte) (h : ∀ c ∈ cs, Accepted c) :
    scanRun ⟨out, [], true⟩ cs = if cs = [] then .ok ⟨out, [], true⟩ else .error .invalidPadding := by
  cases cs with
  | nil => rfl
  | cons c cs => simp [scanRun, scanChar_accepted (h c (by simp)), pushChar]

theorem eq_padSymbol_of_class {c : Byte} (h : classOf c = .pad) : c = padSymbol := by
  revert h; revert c; decide

theorem truncatedLength_eq_eight_iff {w : List Byte} (hl : w.length = 8) (h : ∀ c ∈ w, Accepted c) :
    truncatedLength w = 8 ↔ ∀ c ∈ w, classOf c = .data := by
  unfold truncatedLength
  rw [← hl, List.findIdx_eq_length]
  constructor
  · intro h₁ c hc
    have hp := h₁ c hc
    rcases h c hc with h₂ | h₂
    · exact h₂
    · simp [h₂] at hp
  · intro h₁ c hc; simp [h₁ c hc]

/-- A final window passes the checks of `closeWindow`. -/
theorem closes_of_finalWindow {w : List Byte} {t : Nat} (h : FinalWindow t w) :
    truncatedLength w = t ∧ w.length = 8 ∧ t < 8 ∧ (∀ c ∈ w, Accepted c) ∧
    ((w.drop (t + 1)).any fun c => decide (classOf c ≠ .pad)) = false ∧ nbytes t = some (5 * t / 8) := by
  obtain ⟨ht, d, hd, hD, rfl⟩ := h
  have t8 : t < 8 := by omega
  refine ⟨?_, ?_, t8, ?_, ?_, ?_⟩
  · unfold truncatedLength
    have hn : List.findIdx (fun c => decide (classOf c = .pad)) d = d.length := by
      rw [List.findIdx_eq_length]; intro c hc; simp [hD c hc]
    have he : 8 - t = (8 - t - 1) + 1 := by omega
    rw [List.findIdx_append, hn, he, List.replicate_succ, List.findIdx_cons]
    simp [hd]
  · simp [hd]; omega
  · intro c hc
    rcases List.mem_append.mp hc with h | h
    · exact .inl (hD c h)
    · rw [List.eq_of_mem_replicate h]; exact .inr (by decide)
  · rw [List.drop_append, List.drop_of_length_le (by omega)]
    simp
  · rcases ht with rfl | rfl | rfl | rfl <;> rfl

/-- A window that passes the checks of `closeWindow` without being full is a final window. -/
theorem finalWindow_of_closes {w : List Byte} (hl : w.length = 8) (ha : ∀ c ∈ w, Accepted c) (h8 : truncatedLength w ≠ 8)
    (hr : ((w.drop (truncatedLength w + 1)).any fun c => decide (classOf c ≠ .pad)) = false)
    {k : Nat} (hn : nbytes (truncatedLength w) = some k) :
    FinalWindow (truncatedLength w) w ∧ k = 5 * truncatedLength w / 8 := by
  generalize ht : truncatedLength w = t at *
  have hle : t ≤ 8 := by rw [← ht, ← hl]; exact List.findIdx_le_length
  have hcase : t = 2 ∨ t = 4 ∨ t = 5 ∨ t = 7 := by
    interval_cases t <;> simp_all [nbytes]
  refine ⟨⟨hcase, w.take t, by simp; omega, ?_, ?_⟩, by interval_cases t <;> simp_all [nbytes]⟩
  · intro c hc
    rcases ha c (List.mem_of_mem_take hc) with h | h
    · exact h
    · obtain ⟨i, hi, rfl⟩ := List.mem_take_iff_getElem.mp hc
      exfalso
      have hlt : i < truncatedLength w := by rw [ht]; omega
      have hnot := List.not_of_lt_findIdx hlt
      simp at hnot
      exact hnot h
  · conv_lhs => rw [← List.take_append_drop t w]
    congr 1
    rw [List.eq_replicate_iff]
    refine ⟨by simp [hl], ?_⟩
    intro c hc
    have hlt : t < w.length := by omega
    rw [List.drop_eq_getElem_cons hlt] at hc
    rcases List.mem_cons.mp hc with rfl | hc
    · apply eq_padSymbol_of_class
      have he : List.findIdx (fun c => decide (classOf c = .pad)) w = t := ht
      have hg := List.findIdx_getElem (xs := w) (p := fun c => decide (classOf c = .pad)) (w := by rw [he]; exact hlt)
      simp only [he, decide_eq_true_eq] at hg
      exact hg
    · apply eq_padSymbol_of_class
      simp at hr
      exact hr c hc

/-! ### All windows -/

theorem windowsBytes_cons (w : List Byte) (ws : List (List Byte)) :
    windowsBytes (w :: ws) = unpack8 (w.map groupOf) ++ windowsBytes ws := by simp [windowsBytes]

theorem fullWindows_length {ws : List (List Byte)} (hw : FullWindows ws) :
    ws.flatten.length = 8 * ws.length ∧ (windowsBytes ws).length = 5 * ws.length := by
  induction ws with
  | nil => simp [windowsBytes]
  | cons w ws ih =>
    have h := ih fun x hx => hw x (by simp [hx])
    have hl := (hw w (by simp)).1
    rw [windowsBytes_cons]
    simp [h]
    omega

/-- Clean windows are read into their bytes. -/
theorem scanRun_clean (ws : List (List Byte)) (hw : FullWindows ws) (out f : List Byte) :
    (f.length < 8 → (∀ c ∈ f, Accepted c) →
      scanRun ⟨out, [], false⟩ (ws.flatten ++ f) = .ok ⟨out ++ windowsBytes ws, f, false⟩) ∧
    (∀ t, FinalWindow t f →
      scanRun ⟨out, [], false⟩ (ws.flatten ++ f)
        = .ok ⟨out ++ windowsBytes ws ++ (unpack8 (f.map groupOf)).take (5 * t / 8), [], true⟩) := by
  induction ws generalizing out with
  | nil =>
    constructor
    · intro h₁ h₂; simpa [windowsBytes] using scanRun_short out [] f h₂ (by simpa using h₁)
    · intro t ht
      obtain ⟨h₁, h₂, h₃, h₄, h₅, h₆⟩ := closes_of_finalWindow ht
      obtain ⟨v, hv⟩ := scanRun_window out f h₄ h₂
      simp only [List.flatten_nil, List.nil_append, hv, closeWindow, h₁, if_neg (show t ≠ 8 by omega), h₅, h₆]
      simp [windowsBytes]
  | cons w ws ih =>
    have hw₁ := hw w (by simp)
    have hi := ih (fun x hx => hw x (by simp [hx])) (out ++ unpack8 (w.map groupOf))
    have ha : ∀ c ∈ w, Accepted c := fun c hc => .inl (hw₁.2 c hc)
    obtain ⟨v, hv⟩ := scanRun_window out w ha hw₁.1
    have hstep : ∀ rest, scanRun ⟨out, [], false⟩ (w ++ rest)
        = scanRun ⟨out ++ unpack8 (w.map groupOf), [], false⟩ rest := by
      intro rest
      rw [scanRun_append, hv]
      simp [closeWindow, (truncatedLength_eq_eight_iff hw₁.1 ha).mpr hw₁.2]
    rw [List.flatten_cons, List.append_assoc, hstep, windowsBytes_cons, ← List.append_assoc]
    exact hi

/-- On accepted characters the scan ends in `InvalidPadding`, or it has read clean windows. -/
theorem scanRun_error_or_clean (str out : List Byte) (h : ∀ c ∈ str, Accepted c) :
    scanRun ⟨out, [], false⟩ str = .error .invalidPadding ∨ CleanSoFar str := by
  suffices H : ∀ (n : Nat) (str out : List Byte), str.length ≤ n → (∀ c ∈ str, Accepted c) →
      scanRun ⟨out, [], false⟩ str = .error .invalidPadding ∨ CleanSoFar str from H _ str out le_rfl h
  clear h str out
  intro n
  induction n with
  | zero =>
    intro str out hl h
    exact .inr ⟨[], str, List.forall_mem_nil _, by simp only [List.flatten_nil, List.nil_append], .inl ⟨by omega, h⟩⟩
  | succ n ih =>
    intro str out hl h
    by_cases h8 : str.length < 8
    · exact .inr ⟨[], str, List.forall_mem_nil _, by simp only [List.flatten_nil, List.nil_append], .inl ⟨h8, h⟩⟩
    have htl : (str.take 8).length = 8 := by simp; omega
    have ha : ∀ c ∈ str.take 8, Accepted c := fun c hc => h c (List.mem_of_mem_take hc)
    have hd : ∀ c ∈ str.drop 8, Accepted c := fun c hc => h c (List.mem_of_mem_drop hc)
    obtain ⟨v, hv⟩ := scanRun_window out (str.take 8) ha htl
    have hr : scanRun ⟨out, [], false⟩ str = match closeWindow ⟨out, v, false⟩ (str.take 8) with
        | .ok sc' => scanRun sc' (str.drop 8)
        | .error e => .error e := by
      conv_lhs => rw [← List.take_append_drop 8 str]
      rw [scanRun_append, hv]
    by_cases t8 : truncatedLength (str.take 8) = 8
    · simp only [closeWindow, if_pos t8] at hr
      rcases ih (str.drop 8) (out ++ unpack8 ((str.take 8).map groupOf)) (by simp; omega) hd with he | ⟨ws, f, h₁, h₂, h₃⟩
      · exact .inl (hr.trans he)
      · refine .inr ⟨str.take 8 :: ws, f, ?_, ?_, h₃⟩
        · intro w hw
          rcases List.mem_cons.mp hw with rfl | hw
          · exact ⟨htl, (truncatedLength_eq_eight_iff htl ha).mp t8⟩
          · exact h₁ w hw
        · rw [List.flatten_cons, List.append_assoc, ← h₂, List.take_append_drop]
    · simp only [closeWindow, if_neg t8] at hr
      cases hany : ((str.take 8).drop (truncatedLength (str.take 8) + 1)).any fun c => decide (classOf c ≠ .pad) with
      | true => left; rw [hr, hany]; rfl
      | false =>
        cases hn : nbytes (truncatedLength (str.take 8)) with
        | none => left; rw [hr, hany, hn]; rfl
        | some k =>
          rw [hany, hn] at hr
          simp only [Bool.false_eq_true, if_false] at hr
          obtain ⟨hf, -⟩ := finalWindow_of_closes htl ha t8 hany hn
          rw [scanRun_after_final _ _ hd] at hr
          split at hr
          · rename_i hd
            refine .inr ⟨[], str, List.forall_mem_nil _, by simp only [List.flatten_nil, List.nil_append],
              .inr ⟨truncatedLength (str.take 8), ?_⟩⟩
            have he : str = str.take 8 := by
              conv_lhs => rw [← List.take_append_drop 8 str, hd, List.append_nil]
            rwa [← he] at hf ⊢
          · exact .inl hr

end Sys2Proof.Machine
end

