-- ==== Sys2Proof/Tests/Slice0.lean ====
section
/-! SUPPORT. Tests: the checks of `WellFormed`, words written bit by bit from rule R62, single steps with the results of
`95_test_vectors.md`, and for every statement that has hypotheses a witness that meets them together. -/

namespace Sys2Proof.Machine

/-! ### Small states -/

/-- A block with default parameters whose host has loaded `input`; the other registers are 0. -/
def testState (input : List Byte) (script : List HostStep) : State where
  status := 0#32
  ilen := BitVec.ofNat 16 input.length
  olen := 0#16
  ctrLo := 0#32
  ctrHi := 0#32
  offset := 0#4
  trunc := 0#31
  code := 0#31
  ibuf := Memory.ofBytes input
  obuf := []
  cfg := Config.default
  draws := 1
  script := script
  received := []

/-- The block with `input` loaded and a write of the command word `w` as the host's next access. -/
def beforeCommand (w : Word) (input : List Byte) : State := testState input [.memWrite 0x000 4 w]

/-- The same with `ILEN` set to `n`, whatever is loaded. -/
def beforeCommandLen (w : Word) (n : Nat) : State := { beforeCommand w [] with ilen := BitVec.ofNat 16 n }

/-- `STATUS` and the bytes of `OBUF` after a next state. -/
def resultOf : Host.Outcome State Fault Refusal → Option (Word × List (Option Byte))
  | .next t => some (t.status, (List.range t.olen.toNat).map (Memory.get t.obuf))
  | .fault _ => none
  | .refused _ => none

/-- `OFFSET`, `TRUNC` and `CODE` after a next state. -/
def codeOf : Host.Outcome State Fault Refusal → Option (Nat × Nat × Nat)
  | .next t => some (t.offset.toNat, t.trunc.toNat, t.code.toNat)
  | .fault _ => none
  | .refused _ => none

/-- What the host has received after a next state. -/
def receivedOf : Host.Outcome State Fault Refusal → Option (List Word)
  | .next t => some t.received
  | .fault _ => none
  | .refused _ => none

/-- The bytes and the symbols of the source's example V1. -/
def bytesV1 : List Byte := [0x84#8, 0x79#8, 0xEF#8, 0xE1#8, 0x83#8]
def symbolsV1 : List Byte := [0x51#8, 0x52#8, 0x34#8, 0x36#8, 0x37#8, 0x59#8, 0x4D#8, 0x44#8]

/-- The smallest legal buffers. -/
def smallConfig : Config := { base := 0x1000, nIn := 20, nOut := 32 }

/-! ### WellFormed refuses an ill-formed term of each kind -/

theorem test_wf_code_length_16 : (Instr.htrunc 16).wf = false := by decide
theorem test_wf_code_length_15 : (Instr.htrunc 15).wf = true := by decide
theorem test_wf_command_statement : (Stmt.command (.htrunc 16)).wf Config.default = false := by decide
theorem test_wf_write_beyond_ibuf : (Stmt.wrb 320 0#8).wf Config.default = false := by decide
theorem test_wf_read_beyond_ibuf : (Stmt.rdbIbuf 320).wf Config.default = false := by decide
theorem test_wf_read_beyond_obuf : (Stmt.rdbObuf 512).wf Config.default = false := by decide
theorem test_wf_last_bytes : (Stmt.wrb 319 0#8).wf Config.default = true ∧ (Stmt.rdbObuf 511).wf Config.default = true := by
  decide
theorem test_wf_load_too_long : (Stmt.loadb (List.replicate 21 0#8)).wf smallConfig = false := by decide
theorem test_wf_text_too_long : (Stmt.loads (List.replicate 21 'A')).wf smallConfig = false := by decide
theorem test_wf_text_wide_character : (Stmt.loads [Char.ofNat 256]).wf Config.default = false := by decide
theorem test_wf_check_too_long : (Stmt.checkObuf (List.replicate 33 0#8)).wf smallConfig = false := by decide

/-! ### Decoding, words written bit by bit from rules R60 to R64 -/

theorem test_decode_b32encc :
    decode 0b00000000000000000000000000010000#32 = .command .b32encc ∧
    encode .b32encc = 0b00000000000000000000000000010000#32 := by
  decide
theorem test_decode_b32decc :
    decode 0b00000000000000000000000000010001#32 = .command .b32decc ∧
    encode .b32decc = 0b00000000000000000000000000010001#32 := by
  decide
theorem test_decode_b32enc :
    decode 0b00000000000000000000000000010010#32 = .command .b32enc ∧
    encode .b32enc = 0b00000000000000000000000000010010#32 := by
  decide
theorem test_decode_b32dec :
    decode 0b00000000000000000000000000010011#32 = .command .b32dec ∧
    encode .b32dec = 0b00000000000000000000000000010011#32 := by
  decide
theorem test_decode_ctrser :
    decode 0b00000000000000000000000000100000#32 = .command .ctrser ∧
    encode .ctrser = 0b00000000000000000000000000100000#32 := by
  decide
theorem test_decode_htrunc_0 :
    decode 0b00000000000000000000000000100001#32 = .command (.htrunc 0) ∧
    encode (.htrunc 0) = 0b00000000000000000000000000100001#32 := by
  decide
theorem test_decode_htrunc_6 :
    decode 0b00000000000000000000011000100001#32 = .command (.htrunc 6) ∧
    encode (.htrunc 6) = 0b00000000000000000000011000100001#32 := by
  decide
theorem test_decode_htrunc_15 :
    decode 0b00000000000000000000111100100001#32 = .command (.htrunc 15) ∧
    encode (.htrunc 15) = 0b00000000000000000000111100100001#32 := by
  decide

/-- Illegal words of section 9, each refused by its name. -/
theorem test_decode_reserved_bits :
    [0xFFFFFFFF#32, 0x00001012#32, 0x00001621#32, 0x80000621#32, 0x00010010#32].map decode
      = List.replicate 5 (.illegal .reservedBits) := by decide
theorem test_decode_argument_not_zero :
    [0x00000110#32, 0x00000612#32, 0x00000F13#32, 0x00000120#32, 0x00000210#32].map decode
      = List.replicate 5 (.illegal .argumentNotZero) := by decide
theorem test_decode_unassigned_opcode :
    [0x00000000#32, 0x00000001#32, 0x0000000F#32, 0x00000014#32, 0x0000001F#32, 0x00000022#32, 0x000000FF#32].map decode
      = List.replicate 7 (.illegal .unassignedOpcode) := by decide

/-- A table word shorter than the command has zeros above it; a table word that is illegal decodes to nothing. -/
theorem test_decode_table_word :
    decodeTableWord 32 0x621 = some (.htrunc 6) ∧ decodeTableWord 8 0x621 = some (.htrunc 0) ∧
    decodeTableWord 32 0x1621 = none := by decide

/-! ### One step per command, expected results from `95_test_vectors.md` -/

/-- Section 1, V1. -/
theorem test_b32encc_source_example :
    resultOf (step (beforeCommand 0x00000010#32 [0x84#8, 0x79#8, 0xEF#8, 0xE1#8, 0x83#8]))
      = some (0x00000001#32, [0x51#8, 0x52#8, 0x34#8, 0x36#8, 0x37#8, 0x59#8, 0x4D#8, 0x44#8].map some) := by decide
/-- Section 3, C8. -/
theorem test_b32encc_four_bytes :
    resultOf (step (beforeCommand 0x00000010#32 [0x00#8, 0x00#8, 0x00#8, 0x00#8]))
      = some (0x00000033#32, [].map some) := by decide
/-- Section 3, C20. -/
theorem test_b32decc_pad_anywhere :
    resultOf (step (beforeCommand 0x00000011#32 [0x41#8, 0x3D#8, 0x42#8, 0x3D#8, 0x43#8, 0x3D#8, 0x44#8, 0x3D#8]))
      = some (0x00000001#32, [0x00#8, 0x02#8, 0x01#8, 0x00#8, 0x60#8].map some) := by decide
/-- Section 3, C22. -/
theorem test_b32decc_line_feed :
    resultOf (step (beforeCommand 0x00000011#32
      [0x41#8, 0x41#8, 0x41#8, 0x41#8, 0x0A#8, 0x41#8, 0x41#8, 0x41#8]))
      = some (0x00000013#32, [].map some) := by decide
/-- Section 1, V2 (E17). -/
theorem test_b32enc_partial_chunk :
    resultOf (step (beforeCommand 0x00000012#32 [0x43#8, 0x73#8, 0xAC#8, 0xF0#8, 0xD3#8, 0x4E#8, 0x7C#8, 0x15#8]))
      = some (0x00000001#32, [0x49#8, 0x4E#8, 0x5A#8, 0x32#8, 0x5A#8, 0x34#8, 0x47#8, 0x54#8,
        0x4A#8, 0x5A#8, 0x36#8, 0x42#8, 0x4B#8, 0x3D#8, 0x3D#8, 0x3D#8].map some) := by decide
/-- Section 4: `ILEN = 321`. -/
theorem test_b32enc_too_long :
    resultOf (step (beforeCommandLen 0x00000012#32 321))
      = some (0x00000033#32, [].map some) := by decide
/-- Section 5.1, D35. -/
theorem test_b32dec_whitespace_in_padding :
    resultOf (step (beforeCommand 0x00000013#32
      [0x41#8, 0x41#8, 0x3D#8, 0x3D#8, 0x0A#8, 0x3D#8, 0x3D#8, 0x3D#8, 0x3D#8]))
      = some (0x00000001#32, [0x00#8].map some) := by decide
/-- Section 5.3, X18: the padding fault comes before the later bad character. -/
theorem test_b32dec_padding_before_character :
    resultOf (step (beforeCommand 0x00000013#32
      [0x41#8, 0x3D#8, 0x3D#8, 0x3D#8, 0x3D#8, 0x3D#8, 0x3D#8, 0x3D#8, 0x21#8]))
      = some (0x00000023#32, [].map some) := by decide
/-- Section 6, S5. -/
theorem test_ctrser_byte_order :
    resultOf (step { beforeCommand 0x00000020#32 [] with ctrHi := 0x01234567#32, ctrLo := 0x89ABCDEF#32 })
      = some (0x00000001#32, [0x01#8, 0x23#8, 0x45#8, 0x67#8, 0x89#8, 0xAB#8, 0xCD#8, 0xEF#8].map some) := by decide
/-- Section 6: `CTRSER` ignores `ILEN`; S7. -/
theorem test_ctrser_any_length :
    resultOf (step { beforeCommandLen 0x00000020#32 0xFFFF with ctrHi := 0x00000001#32 })
      = some (0x00000001#32, [0x00#8, 0x00#8, 0x00#8, 0x01#8, 0x00#8, 0x00#8, 0x00#8, 0x00#8].map some) := by decide

/-- The digest of row A1. -/
def digestA1 : List Byte :=
   [0x75#8, 0xA4#8, 0x8A#8, 0x19#8, 0xD4#8, 0xCB#8, 0xE1#8, 0x00#8, 0x64#8, 0x4E#8,
    0x8A#8, 0xC1#8, 0x39#8, 0x7E#8, 0xEA#8, 0x74#8, 0x7A#8, 0x2D#8, 0x33#8, 0xAB#8]

/-- The digest of rows H14: offset 15, a sign bit that is masked, the value 5. -/
def digestH14 : List Byte :=
   [0x00#8, 0x00#8, 0x00#8, 0x00#8, 0x00#8, 0x00#8, 0x00#8, 0x00#8, 0x00#8, 0x00#8,
    0x00#8, 0x00#8, 0x00#8, 0x00#8, 0x00#8, 0x80#8, 0x00#8, 0x00#8, 0x05#8, 0x0F#8]

/-- Section 7.2, `L = 9`: a kept leading zero. -/
theorem test_htrunc_leading_zero :
    codeOf (step (beforeCommand 0x00000921#32 digestA1)) = some (11, 1094287082, 94287082) ∧
    resultOf (step (beforeCommand 0x00000921#32 digestA1))
      = some (0x00000001#32, [0x30#8, 0x39#8, 0x34#8, 0x32#8, 0x38#8, 0x37#8, 0x30#8, 0x38#8, 0x32#8].map some) := by decide
/-- Section 7.3, H14. -/
theorem test_htrunc_masks_the_sign_bit :
    codeOf (step (beforeCommand 0x00000621#32 digestH14)) = some (15, 5, 5) ∧
    resultOf (step (beforeCommand 0x00000621#32 digestH14))
      = some (0x00000001#32, [0x30#8, 0x30#8, 0x30#8, 0x30#8, 0x30#8, 0x35#8].map some) := by decide

/-- Section 9, check order: an illegal word with `ILEN = 0xFFFF` is `IllegalCommand`, a legal one `OperandLength`. -/
theorem test_illegal_word_before_length :
    resultOf (step (beforeCommandLen 0x00000000#32 0xFFFF)) = some (0x00000043#32, []) ∧
    resultOf (step (beforeCommandLen 0x00000621#32 0xFFFF)) = some (0x00000033#32, []) := by decide

/-! ### Reset, and a command as the first step after it -/

/-- Section 3, C10: `ILEN = 0` straight after reset. -/
theorem test_first_step_after_reset :
    resultOf (step (State.reset.withFetchWord 32 0x00000010)) = some (0x00000033#32, []) := by decide
/-- Section 4, E1: the empty input encodes to the empty output. -/
theorem test_encode_after_reset :
    resultOf (step (State.reset.withFetchWord 32 0x00000012)) = some (0x00000001#32, []) := by decide
/-- Section 9, accesses 1 to 4. -/
theorem test_reads_after_reset :
    [0x000, 0x004, 0x008, 0x00C].map (fun off => receivedOf (perform (.memRead off 4) State.reset))
      = List.replicate 4 (some [0#32]) := by decide

/-! ### The host's accesses, section 9 -/

theorem test_write_status_ignored :
    (match perform (.memWrite 0x004 4 0xFFFFFFFF#32) State.reset with
      | .next t => some t.status
      | .fault _ => none
      | .refused _ => none) = some 0#32 := by decide
theorem test_write_ilen_drops_high_half :
    (match perform (.memWrite 0x008 4 0x12340005#32) State.reset with
      | .next t => some t.ilen
      | .fault _ => none
      | .refused _ => none) = some 5#16 := by decide
/-- Log 19: `COPYOUT` of 24 characters with `N_IN = 20` stops at the write of `IBUF+20`, a reserved offset (R48). -/
theorem test_copyout_beyond_ibuf :
    (match runStmt .copyout (succeeded (List.replicate 24 0x3D#8) { testState [] [] with cfg := smallConfig }) with
      | .next _ => none
      | .fault _ => none
      | .refused r => some r) = some .reservedOffset := by decide
theorem test_write_ibuf_then_read :
    receivedOf (perform (.memRead 0x400 1) (testState [0xA5#8] [])) = some [0x000000A5#32] := by decide
/-- A script of rule R67, checked: `LOADCTR`, `CTRSER`, `CHECK OBUF` with the bytes of S2, and with other bytes. -/
theorem test_check_output :
    checkHolds (.checkObuf [0x00#8, 0x00#8, 0x00#8, 0x00#8, 0x00#8, 0x00#8, 0x00#8, 0x01#8])
      { testState [] [] with
          olen := 8#16, obuf := Memory.ofBytes [0x00#8, 0x00#8, 0x00#8, 0x00#8, 0x00#8, 0x00#8, 0x00#8, 0x01#8] } = true ∧
    checkHolds (.checkObuf [0x00#8, 0x00#8, 0x00#8, 0x00#8, 0x00#8, 0x00#8, 0x00#8, 0x02#8])
      { testState [] [] with
          olen := 8#16, obuf := Memory.ofBytes [0x00#8, 0x00#8, 0x00#8, 0x00#8, 0x00#8, 0x00#8, 0x00#8, 0x01#8] } = false := by
  decide

/-! ### Witnesses: states and operands that meet the hypotheses of the statements, at the ends of their ranges -/

/-- The block with nothing loaded and `ILEN` equal to `n`. -/
def lengthState (n : Nat) : State := { testState [] [] with ilen := BitVec.ofNat 16 n }

/-- The block with the smallest buffers, at base 0x1000. -/
def smallState : State := { testState [] [] with cfg := smallConfig }

/-- The block after a successful command with output `out`. -/
def doneState (out : List Byte) : State := succeeded out (testState [] [])

theorem witness_DecodeOfEncode :
    Instr.b32encc.WellFormed ∧ Instr.ctrser.WellFormed ∧ (Instr.htrunc 0).WellFormed ∧ (Instr.htrunc 15).WellFormed := by
  decide

theorem witness_EncodeOfDecode : decode 0x00000013#32 = .command .b32dec := by decide

theorem witness_CodeLengthIsBitsElevenToEight :
    decode 0x00000021#32 = .command (.htrunc 0) ∧ decode 0x00000F21#32 = .command (.htrunc 15) := by decide

theorem witness_StepPerformsNextHostStep :
    (testState [] [.memRead 0x004 4, .reset]).script = .memRead 0x004 4 :: [.reset] := rfl

theorem witness_StepWithoutHostAccess : State.reset.script = [] := rfl

theorem witness_StepRunsDecodedCommand :
    (State.reset.withFetchWord 32 0x621).script = .memWrite (State.reset.cfg.base + 0x000) 4 0x00000621#32 :: [] ∧
    decode 0x00000621#32 = .command (.htrunc 6) := ⟨rfl, by decide⟩

theorem witness_IllegalWordOnlyFails_reserved_bits :
    (0x00001000#32).toNat / 2 ^ 12 ≠ 0 ∧ (0x80000621#32).toNat / 2 ^ 12 ≠ 0 := by decide

theorem witness_IllegalWordOnlyFails_argument :
    ((0x00000110#32).toNat % 2 ^ 8 ∈ [0x10, 0x11, 0x12, 0x13, 0x20] ∧ (0x00000110#32).toNat / 2 ^ 8 % 16 ≠ 0) ∧
    ((0x00000F20#32).toNat % 2 ^ 8 ∈ [0x10, 0x11, 0x12, 0x13, 0x20] ∧ (0x00000F20#32).toNat / 2 ^ 8 % 16 ≠ 0) := by
  decide

theorem witness_IllegalWordOnlyFails_opcode :
    (0x00000000#32).toNat % 2 ^ 8 ∉ [0x10, 0x11, 0x12, 0x13, 0x20, 0x21] ∧
    (0x00000022#32).toNat % 2 ^ 8 ∉ [0x10, 0x11, 0x12, 0x13, 0x20, 0x21] := by decide

theorem witness_EncodeChunkResult :
    LengthIs 5 (testState [0#8, 0#8, 0#8, 0#8, 0#8] []) ∧ ¬ LengthIs 5 (lengthState 4) ∧ ¬ LengthIs 5 (lengthState 6) := by
  decide

theorem witness_DecodeChunkResult_accepted :
    LengthIs 8 (testState [0x41#8, 0x3D#8, 0x42#8, 0x3D#8, 0x43#8, 0x3D#8, 0x44#8, 0x3D#8] []) ∧
    ∀ k, k < 8 →
      classOf (ibufByte (testState [0x41#8, 0x3D#8, 0x42#8, 0x3D#8, 0x43#8, 0x3D#8, 0x44#8, 0x3D#8] []) k) = .data ∨
      classOf (ibufByte (testState [0x41#8, 0x3D#8, 0x42#8, 0x3D#8, 0x43#8, 0x3D#8, 0x44#8, 0x3D#8] []) k) = .pad := by
  decide

theorem witness_DecodeChunkResult_refused :
    LengthIs 8 (testState [0x41#8, 0x41#8, 0x41#8, 0x41#8, 0x41#8, 0x41#8, 0x41#8, 0x20#8] []) ∧
    ∃ k, k < 8 ∧ classOf (ibufByte (testState [0x41#8, 0x41#8, 0x41#8, 0x41#8, 0x41#8, 0x41#8, 0x41#8, 0x20#8] []) k) ≠ .data ∧
      classOf (ibufByte (testState [0x41#8, 0x41#8, 0x41#8, 0x41#8, 0x41#8, 0x41#8, 0x41#8, 0x20#8] []) k) ≠ .pad :=
  ⟨by decide, 7, by decide⟩

theorem witness_DecodeChunkResult_length : ¬ LengthIs 8 (lengthState 7) ∧ ¬ LengthIs 8 (lengthState 9) := by decide

theorem witness_DecodeChunkResult_values : ∃ g : Nat → Byte, ∀ k,
    g k = if classOf (ibufByte (lengthState 8) k) = .data then (val (ibufByte (lengthState 8) k)).setWidth 8 else 0#8 :=
  ⟨_, fun _ => rfl⟩

theorem witness_EncodeSequenceResult :
    (lengthState 320).cfg.Legal ∧ (lengthState 320).ilen.toNat ≤ (lengthState 320).cfg.nIn ∧
    (lengthState 0).ilen.toNat ≤ (lengthState 0).cfg.nIn ∧ (lengthState 321).cfg.nIn < (lengthState 321).ilen.toNat := by
  decide

theorem witness_DecodeSequenceResult_full_windows :
    (testState [0x4D#8, 0x5A#8, 0x58#8, 0x57#8, 0x36#8, 0x59#8, 0x54#8, 0x42#8] []).ilen.toNat ≤ 320 ∧
    FullWindows [[0x4D#8, 0x5A#8, 0x58#8, 0x57#8, 0x36#8, 0x59#8, 0x54#8, 0x42#8]] ∧
    stripped (inputBytes (testState [0x4D#8, 0x5A#8, 0x58#8, 0x57#8, 0x36#8, 0x59#8, 0x54#8, 0x42#8] []))
      = [[0x4D#8, 0x5A#8, 0x58#8, 0x57#8, 0x36#8, 0x59#8, 0x54#8, 0x42#8]].flatten := by
  decide

theorem witness_DecodeSequenceResult_no_window : FullWindows [] ∧ stripped (inputBytes (lengthState 0)) = [].flatten := by
  decide

theorem witness_DecodeSequenceResult_final_window_2 :
    FullWindows [[0x4D#8, 0x5A#8, 0x58#8, 0x57#8, 0x36#8, 0x59#8, 0x54#8, 0x42#8]] ∧
    FinalWindow 2 ([0x4F#8, 0x49#8] ++ List.replicate 6 padSymbol) ∧
    stripped (inputBytes (testState ([0x4D#8, 0x5A#8, 0x58#8, 0x57#8, 0x36#8, 0x59#8, 0x54#8, 0x42#8] ++ [0x20#8]
        ++ [0x4F#8, 0x49#8, 0x3D#8, 0x3D#8, 0x3D#8, 0x3D#8, 0x3D#8, 0x3D#8]) []))
      = [[0x4D#8, 0x5A#8, 0x58#8, 0x57#8, 0x36#8, 0x59#8, 0x54#8, 0x42#8]].flatten
        ++ ([0x4F#8, 0x49#8] ++ List.replicate 6 padSymbol) :=
  ⟨by decide, ⟨by decide, [0x4F#8, 0x49#8], by decide⟩, by decide⟩

theorem witness_DecodeSequenceResult_final_window_7 :
    FullWindows [] ∧
    FinalWindow 7 ([0x4D#8, 0x5A#8, 0x58#8, 0x57#8, 0x36#8, 0x59#8, 0x51#8] ++ List.replicate 1 padSymbol) ∧
    stripped (inputBytes (testState [0x4D#8, 0x5A#8, 0x58#8, 0x57#8, 0x36#8, 0x59#8, 0x51#8, 0x3D#8] []))
      = [].flatten ++ ([0x4D#8, 0x5A#8, 0x58#8, 0x57#8, 0x36#8, 0x59#8, 0x51#8] ++ List.replicate 1 padSymbol) :=
  ⟨by decide, ⟨by decide, [0x4D#8, 0x5A#8, 0x58#8, 0x57#8, 0x36#8, 0x59#8, 0x51#8], by decide⟩, by decide⟩

/-- The length of full windows and a final one is a multiple of 8. -/
theorem windows_length {ws : List (List Byte)} {f : List Byte} (hw : FullWindows ws)
    (hf : f = [] ∨ ∃ k, FinalWindow k f) : (ws.flatten ++ f).length % 8 = 0 := by
  have hl : ws.flatten.length % 8 = 0 := by
    induction ws with
    | nil => rfl
    | cons w ws ih =>
      have h₁ := (hw w (by simp)).1
      have h₂ := ih fun x hx => hw x (by simp [hx])
      simp only [List.flatten_cons, List.length_append]; omega
  have hf' : f.length % 8 = 0 := by
    rcases hf with rfl | ⟨k, hk, d, hd, -, rfl⟩
    · rfl
    · simp only [List.length_append, List.length_replicate]; omega
  simp only [List.length_append]; omega

theorem witness_DecodeSequenceResult_bad_padding :
    (∀ c ∈ inputBytes (testState [0x41#8] []), classOf c ≠ .bad) ∧
    ¬ ∃ ws f, FullWindows ws ∧ (f = [] ∨ ∃ k, FinalWindow k f) ∧
      stripped (inputBytes (testState [0x41#8] [])) = ws.flatten ++ f := by
  refine ⟨by decide, ?_⟩
  rintro ⟨ws, f, hw, hf, h⟩
  have hl := windows_length hw hf
  rw [← h] at hl
  revert hl
  decide

theorem witness_DecodeSequenceResult_bad_character :
    inputBytes (testState [0x41#8, 0x21#8] []) = [0x41#8] ++ 0x21#8 :: [] ∧
    (∀ x ∈ [0x41#8], classOf x ≠ .bad) ∧ classOf 0x21#8 = .bad ∧ CleanSoFar (stripped [0x41#8]) :=
  ⟨by decide, by decide, by decide, [], [0x41#8], by decide, by decide, .inl (by decide)⟩

theorem witness_DecodeSequenceResult_padding_first :
    inputBytes (testState [0x41#8, 0x3D#8, 0x3D#8, 0x3D#8, 0x3D#8, 0x3D#8, 0x3D#8, 0x3D#8, 0x21#8] [])
      = [0x41#8, 0x3D#8, 0x3D#8, 0x3D#8, 0x3D#8, 0x3D#8, 0x3D#8, 0x3D#8] ++ 0x21#8 :: [] ∧
    (∀ x ∈ [0x41#8, 0x3D#8, 0x3D#8, 0x3D#8, 0x3D#8, 0x3D#8, 0x3D#8, 0x3D#8], classOf x ≠ .bad) ∧
    ¬ CleanSoFar (stripped [0x41#8, 0x3D#8, 0x3D#8, 0x3D#8, 0x3D#8, 0x3D#8, 0x3D#8, 0x3D#8]) := by
  refine ⟨by decide, by decide, ?_⟩
  rintro ⟨ws, f, hw, h, hf⟩
  have hs : stripped [0x41#8, 0x3D#8, 0x3D#8, 0x3D#8, 0x3D#8, 0x3D#8, 0x3D#8, 0x3D#8]
      = [0x41#8, 0x3D#8, 0x3D#8, 0x3D#8, 0x3D#8, 0x3D#8, 0x3D#8, 0x3D#8] := by decide
  rw [hs] at h
  cases ws with
  | nil =>
    simp only [List.flatten_nil, List.nil_append] at h
    subst h
    rcases hf with ⟨hl, -⟩ | ⟨t, ht, d, hd, hc, he⟩
    · simp at hl
    · match d, hd, hc, he with
      | [], hd, _, _ => simp at hd; omega
      | [_], hd, _, _ => simp at hd; omega
      | _ :: b :: _, _, hc, he =>
        simp only [List.cons_append, List.cons.injEq] at he
        have hb := hc b (by simp)
        rw [← he.2.1] at hb
        revert hb; decide
  | cons w ws =>
    obtain ⟨hl, hc⟩ := hw w (by simp)
    match w, hl, hc, h with
    | [], hl, _, _ => simp at hl
    | [_], hl, _, _ => simp at hl
    | _ :: b :: _, _, hc, h =>
      simp only [List.flatten_cons, List.cons_append, List.cons.injEq] at h
      have hb := hc b (by simp)
      rw [← h.2.1] at hb
      revert hb; decide

theorem witness_UnusableLengthFails :
    readsInput (.htrunc 6) = true ∧ (lengthState 321).cfg.nIn < (lengthState 321).ilen.toNat ∧
    (lengthState 4).ilen ≠ 5#16 ∧ (lengthState 9).ilen ≠ 8#16 ∧ (lengthState 21).ilen ≠ 20#16 := by decide

theorem witness_DecodeOutputLength :
    ∃ t, exec .b32dec (testState [0x4D#8, 0x59#8, 0x3D#8, 0x3D#8, 0x3D#8, 0x3D#8, 0x3D#8, 0x3D#8] []) = .next t ∧
      t.status = 0x00000001#32 :=
  ⟨_, rfl, by decide⟩

theorem witness_DecodeDropsDiscardedBits_2 :
    (2, 2) ∈ [(2, 2), (4, 4), (5, 1), (7, 3)] ∧ FullWindows [symbolsV1] ∧ [0x41#8].length + 1 = 2 ∧
    (∀ c ∈ [0x41#8], classOf c = .data) ∧
    classOf 0x41#8 = .data ∧ classOf 0x44#8 = .data ∧
    (val 0x41#8).toNat / 2 ^ 2 = (val 0x44#8).toNat / 2 ^ 2 ∧
    LengthFits (testState (symbolsV1 ++ [0x0A#8] ++ [0x41#8, 0x41#8, 0x3D#8, 0x3D#8, 0x3D#8, 0x3D#8, 0x3D#8, 0x3D#8]) []) ∧
    LengthFits (testState (symbolsV1 ++ [0x0A#8] ++ [0x41#8, 0x44#8, 0x3D#8, 0x3D#8, 0x3D#8, 0x3D#8, 0x3D#8, 0x3D#8]) []) ∧
    stripped (inputBytes (testState (symbolsV1 ++ [0x0A#8] ++ [0x41#8, 0x41#8, 0x3D#8, 0x3D#8, 0x3D#8, 0x3D#8, 0x3D#8, 0x3D#8]) []))
      = [symbolsV1].flatten ++ ([0x41#8] ++ 0x41#8 :: List.replicate (8 - 2) padSymbol) ∧
    stripped (inputBytes (testState (symbolsV1 ++ [0x0A#8] ++ [0x41#8, 0x44#8, 0x3D#8, 0x3D#8, 0x3D#8, 0x3D#8, 0x3D#8, 0x3D#8]) []))
      = [symbolsV1].flatten ++ ([0x41#8] ++ 0x44#8 :: List.replicate (8 - 2) padSymbol) := by
  decide

theorem witness_DecodeDropsDiscardedBits_4 :
    (4, 4) ∈ [(2, 2), (4, 4), (5, 1), (7, 3)] ∧ FullWindows [] ∧ [0x4D#8, 0x5A#8, 0x58#8].length + 1 = 4 ∧
    (∀ c ∈ [0x4D#8, 0x5A#8, 0x58#8], classOf c = .data) ∧
    classOf 0x51#8 = .data ∧ classOf 0x37#8 = .data ∧
    (val 0x51#8).toNat / 2 ^ 4 = (val 0x37#8).toNat / 2 ^ 4 ∧
    LengthFits (testState ([0x4D#8, 0x5A#8, 0x58#8, 0x51#8, 0x3D#8, 0x3D#8, 0x3D#8, 0x3D#8]) []) ∧
    LengthFits (testState ([0x4D#8, 0x5A#8, 0x58#8, 0x37#8, 0x3D#8, 0x3D#8, 0x3D#8, 0x3D#8]) []) ∧
    stripped (inputBytes (testState ([0x4D#8, 0x5A#8, 0x58#8, 0x51#8, 0x3D#8, 0x3D#8, 0x3D#8, 0x3D#8]) []))
      = [].flatten ++ ([0x4D#8, 0x5A#8, 0x58#8] ++ 0x51#8 :: List.replicate (8 - 4) padSymbol) ∧
    stripped (inputBytes (testState ([0x4D#8, 0x5A#8, 0x58#8, 0x37#8, 0x3D#8, 0x3D#8, 0x3D#8, 0x3D#8]) []))
      = [].flatten ++ ([0x4D#8, 0x5A#8, 0x58#8] ++ 0x37#8 :: List.replicate (8 - 4) padSymbol) := by
  decide

theorem witness_DecodeDropsDiscardedBits_5 :
    (5, 1) ∈ [(2, 2), (4, 4), (5, 1), (7, 3)] ∧ FullWindows [] ∧ [0x4D#8, 0x5A#8, 0x58#8, 0x57#8].length + 1 = 5 ∧
    (∀ c ∈ [0x4D#8, 0x5A#8, 0x58#8, 0x57#8], classOf c = .data) ∧
    classOf 0x36#8 = .data ∧ classOf 0x37#8 = .data ∧
    (val 0x36#8).toNat / 2 ^ 1 = (val 0x37#8).toNat / 2 ^ 1 ∧
    LengthFits (testState ([0x4D#8, 0x5A#8, 0x58#8, 0x57#8, 0x36#8, 0x3D#8, 0x3D#8, 0x3D#8]) []) ∧
    LengthFits (testState ([0x4D#8, 0x5A#8, 0x58#8, 0x57#8, 0x37#8, 0x3D#8, 0x3D#8, 0x3D#8]) []) ∧
    stripped (inputBytes (testState ([0x4D#8, 0x5A#8, 0x58#8, 0x57#8, 0x36#8, 0x3D#8, 0x3D#8, 0x3D#8]) []))
      = [].flatten ++ ([0x4D#8, 0x5A#8, 0x58#8, 0x57#8] ++ 0x36#8 :: List.replicate (8 - 5) padSymbol) ∧
    stripped (inputBytes (testState ([0x4D#8, 0x5A#8, 0x58#8, 0x57#8, 0x37#8, 0x3D#8, 0x3D#8, 0x3D#8]) []))
      = [].flatten ++ ([0x4D#8, 0x5A#8, 0x58#8, 0x57#8] ++ 0x37#8 :: List.replicate (8 - 5) padSymbol) := by
  decide

theorem witness_DecodeDropsDiscardedBits_7 :
    (7, 3) ∈ [(2, 2), (4, 4), (5, 1), (7, 3)] ∧ FullWindows [] ∧ [0x4D#8, 0x5A#8, 0x58#8, 0x57#8, 0x36#8, 0x59#8].length + 1 = 7 ∧
    (∀ c ∈ [0x4D#8, 0x5A#8, 0x58#8, 0x57#8, 0x36#8, 0x59#8], classOf c = .data) ∧
    classOf 0x51#8 = .data ∧ classOf 0x58#8 = .data ∧
    (val 0x51#8).toNat / 2 ^ 3 = (val 0x58#8).toNat / 2 ^ 3 ∧
    LengthFits (testState ([0x4D#8, 0x5A#8, 0x58#8, 0x57#8, 0x36#8, 0x59#8, 0x51#8, 0x3D#8]) []) ∧
    LengthFits (testState ([0x4D#8, 0x5A#8, 0x58#8, 0x57#8, 0x36#8, 0x59#8, 0x58#8, 0x3D#8]) []) ∧
    stripped (inputBytes (testState ([0x4D#8, 0x5A#8, 0x58#8, 0x57#8, 0x36#8, 0x59#8, 0x51#8, 0x3D#8]) []))
      = [].flatten ++ ([0x4D#8, 0x5A#8, 0x58#8, 0x57#8, 0x36#8, 0x59#8] ++ 0x51#8 :: List.replicate (8 - 7) padSymbol) ∧
    stripped (inputBytes (testState ([0x4D#8, 0x5A#8, 0x58#8, 0x57#8, 0x36#8, 0x59#8, 0x58#8, 0x3D#8]) []))
      = [].flatten ++ ([0x4D#8, 0x5A#8, 0x58#8, 0x57#8, 0x36#8, 0x59#8] ++ 0x58#8 :: List.replicate (8 - 7) padSymbol) := by
  decide

theorem witness_EncodeOfDecodedOutput :
    inputBytes (testState symbolsV1 []) = encodeBytes bytesV1 ∧ LengthFits (testState symbolsV1 []) ∧
    (∃ t, exec .b32dec (testState symbolsV1 []) = .next t ∧ inputBytes (testState bytesV1 []) = outputBytes t) ∧
    LengthFits (testState bytesV1 []) :=
  ⟨by decide, by decide, ⟨_, rfl, by decide⟩, by decide⟩

theorem witness_ChunkCommandsAreInverse_encode :
    LengthIs 5 (testState bytesV1 []) ∧
    (∃ t, exec .b32encc (testState bytesV1 []) = .next t ∧
      ∀ j, j < 8 → ibufByte (testState symbolsV1 []) j = obufByte t j) ∧
    LengthIs 8 (testState symbolsV1 []) :=
  ⟨by decide, ⟨_, rfl, by decide⟩, by decide⟩

theorem witness_ChunkCommandsAreInverse_decode :
    LengthIs 8 (testState symbolsV1 []) ∧
    (∀ j, j < 8 → classOf (ibufByte (testState symbolsV1 []) j) = .data) ∧
    (∃ t, exec .b32decc (testState symbolsV1 []) = .next t ∧
      ∀ j, j < 5 → ibufByte (testState bytesV1 []) j = obufByte t j) ∧
    LengthIs 5 (testState bytesV1 []) :=
  ⟨by decide, by decide, ⟨_, rfl, by decide⟩, by decide⟩

theorem witness_EncodingSplitsAtChunks :
    encodeBytes bytesV1 = encodeBytes bytesV1 ∧
    bytesV1.length % 5 = 0 ∧ ([] : List Byte).length % 5 = 0 := by decide

theorem witness_TruncationResult :
    0 ≤ 15 ∧ 15 ≤ 15 ∧ 15 = (ibufByte (testState digestH14 []) 19).toNat % 16 ∧
    5 = (ibufByte (testState digestH14 []) 15).toNat % 128 * 2 ^ 24
      + (ibufByte (testState digestH14 []) (15 + 1)).toNat * 2 ^ 16
      + (ibufByte (testState digestH14 []) (15 + 2)).toNat * 2 ^ 8 + (ibufByte (testState digestH14 []) (15 + 3)).toNat ∧
    LengthIs 20 (testState digestH14 []) ∧ ¬ LengthIs 20 (lengthState 19) ∧ ¬ LengthIs 20 (lengthState 21) := by
  decide

theorem witness_DigitsSpellCode :
    0 ≤ 15 ∧ LengthIs 20 (testState digestH14 []) ∧
    (∃ t, exec (.htrunc 0) (testState digestH14 []) = .next t) ∧
    ∃ t, exec (.htrunc 15) (testState digestH14 []) = .next t :=
  ⟨by decide, by decide, ⟨_, rfl⟩, ⟨_, rfl⟩⟩

/-- The premise of `R5` under which `EveryCommandCompletes` says that no byte from `OLEN` on is defined, with a word of
every kind that its other clauses speak of. -/
theorem witness_EveryCommandCompletes :
    (lengthState 0).cfg.Legal ∧ (∀ l, decode 0x00000012#32 ≠ .command (.htrunc l)) ∧
    (∃ t, perform (.memWrite 0x000 4 0x00000621#32) (lengthState 0) = .next t ∧ t.status ≠ 0x00000001#32) :=
  ⟨by decide, fun l => by simp [show decode 0x00000012#32 = .command .b32enc by decide], ⟨_, rfl, by decide⟩⟩

theorem witness_FailedCommandChangesNothingElse :
    ∃ t, perform (.memWrite ((lengthState 0).cfg.base + 0x000) 4 0x00000010#32) (lengthState 0) = .next t ∧
      t.status ≠ 0x00000001#32 :=
  ⟨_, rfl, by decide⟩

/-- Two states that differ in `STATUS`, `OLEN`, `OBUF` and in an `IBUF` byte that the command does not read. -/
theorem witness_CommandDependsOnlyOnOperands :
    (doneState symbolsV1).cfg = (lengthState 0).cfg ∧
    (doneState symbolsV1).ilen = (lengthState 0).ilen ∧
    (doneState symbolsV1).ctrLo = (lengthState 0).ctrLo ∧
    (doneState symbolsV1).ctrHi = (lengthState 0).ctrHi ∧
    (∀ i, i < (lengthState 0).ilen.toNat →
      ibufByte (doneState symbolsV1) i = ibufByte (lengthState 0) i) ∧
    (doneState symbolsV1).status ≠ (lengthState 0).status :=
  ⟨rfl, rfl, rfl, rfl, fun i h => absurd h (Nat.not_lt_zero i), by decide⟩

theorem witness_FailedCommandLeavesNoTrace :
    (∃ t, perform (.memWrite ((testState bytesV1 []).cfg.base + 0x000) 4 0x00000011#32) (testState bytesV1 []) = .next t ∧
      t.status ≠ 0x00000001#32) ∧
    InputWritten (testState bytesV1 []) :=
  ⟨⟨_, rfl, by decide⟩, by decide⟩

theorem witness_EveryPlaceHasOneWriter :
    (∃ t, perform (.memWrite 0x008 4 5#32) (lengthState 0) = .next t) ∧
    (∀ w, HostStep.memWrite 0x008 4 5#32 ≠ .memWrite ((lengthState 0).cfg.base + 0x000) 4 w) ∧
    HostStep.memWrite 0x008 4 5#32 ≠ .reset ∧
    (∃ t, perform (.memWrite ((lengthState 0).cfg.base + 0x000) 4 0x00000020#32) (lengthState 0) = .next t) :=
  ⟨⟨_, rfl⟩, fun w h => by simp [lengthState, testState, Config.default] at h, by decide, ⟨_, rfl⟩⟩

/-- The registers of rule R43 with the values that a read returns: the first and the last. -/
theorem witness_RegisterReadValues :
    ∀ e ∈ [(0x000, 0#32), (0x020, (lengthState 5).code.setWidth 32)],
      e ∈ [(0x000, 0#32), (0x004, (lengthState 5).status), (0x008, (lengthState 5).ilen.setWidth 32),
        (0x00C, (lengthState 5).olen.setWidth 32), (0x010, (lengthState 5).ctrLo), (0x014, (lengthState 5).ctrHi),
        (0x018, (lengthState 5).offset.setWidth 32), (0x01C, (lengthState 5).trunc.setWidth 32),
        (0x020, (lengthState 5).code.setWidth 32)] := by
  decide

/-- A read of an input byte that nothing has written completes too. -/
theorem witness_ReadsChangeNothing :
    (∃ t, perform (.memRead 0x004 4) State.reset = .next t) ∧ ∃ t, perform (.memRead 0x400 1) State.reset = .next t :=
  ⟨⟨_, rfl⟩, ⟨_, rfl⟩⟩

theorem witness_AccessRights :
    (doneState symbolsV1).Inv ∧ 511 < (doneState symbolsV1).cfg.nOut ∧
    (0x00001010#32).toNat / 2 ^ 12 ≠ 0 := by
  decide

theorem witness_InputByteReadsBack : State.reset.cfg.Legal ∧ 0 < State.reset.cfg.nIn ∧ 319 < State.reset.cfg.nIn := by
  decide

theorem witness_OutputByteReads :
    (doneState symbolsV1).Inv ∧ 511 < (doneState symbolsV1).cfg.nOut ∧
    7 < (doneState symbolsV1).olen.toNat ∧
    ¬ 8 < (doneState symbolsV1).olen.toNat := by
  decide

theorem witness_ReservedOffsetsRefused :
    Config.default.Legal ∧ (0x024 ≤ 0x024 ∧ 0x024 < 0x400) ∧ (0x024 ≤ 0x3FF ∧ 0x3FF < 0x400) ∧
    (0x400 + Config.default.nIn ≤ 0x540 ∧ 0x540 < 0x800) ∧ (0x400 + Config.default.nIn ≤ 0x7FF ∧ 0x7FF < 0x800) ∧
    (0x800 + Config.default.nOut ≤ 0xA00 ∧ 0xA00 < 0x1000) ∧ (0x800 + Config.default.nOut ≤ 0xFFF ∧ 0xFFF < 0x1000) := by
  decide

theorem witness_UndefinedAccessesRefused :
    Config.default.Legal ∧ (0x000 < 0x024 ∧ ¬ (2 = 4 ∧ 0x000 % 4 = 0)) ∧ (0x022 < 0x024 ∧ ¬ (4 = 4 ∧ 0x022 % 4 = 0)) ∧
    (0x400 ≤ 0x400 ∧ 0x400 < 0x400 + Config.default.nIn ∧ 4 ≠ 1) ∧
    (0x400 ≤ 0x53F ∧ 0x53F < 0x400 + Config.default.nIn ∧ 2 ≠ 1) ∧
    (0x800 ≤ 0x800 ∧ 0x800 < 0x800 + Config.default.nOut ∧ 4 ≠ 1) ∧
    (0x800 ≤ 0x9FF ∧ 0x9FF < 0x800 + Config.default.nOut ∧ 2 ≠ 1) := by
  decide

theorem witness_OutsideWindowFaults :
    0x0FFF < smallState.cfg.base ∧ smallState.cfg.base + 0x1000 ≤ 0x2000 := by decide

theorem witness_ResetEventState : (testState bytesV1 [.reset]).script = .reset :: [] := rfl

theorem witness_StepKeepsInvariant :
    (beforeCommand 0x00000010#32 bytesV1).Inv ∧
    ∃ t, step (beforeCommand 0x00000010#32 bytesV1) = .next t :=
  ⟨by decide, ⟨_, rfl⟩⟩

theorem witness_ValueOfSymbol : classOf 0x41#8 = .data ∧ classOf 0x37#8 = .data := by decide

theorem witness_PackAndUnpackAreInverse :
    bytesV1.length = 5 ∧ (pack5 bytesV1).length = 8 := by decide

theorem witness_LoadBytesPlacesInput :
    smallState.cfg.Legal ∧ ([] : List Byte).length ≤ smallState.cfg.nIn ∧ digestA1.length ≤ smallState.cfg.nIn := by
  decide

theorem witness_CopyOutMovesOutputToInput :
    (doneState symbolsV1).Inv ∧
    (doneState symbolsV1).olen.toNat ≤ (doneState symbolsV1).cfg.nIn := by
  decide

theorem witness_DecodeOfEncodedInput :
    smallState.cfg.Legal ∧ (digestA1.take 10).length ≤ smallState.cfg.nIn ∧
    8 * (((digestA1.take 10).length + 4) / 5) ≤ smallState.cfg.nIn := by
  decide

theorem witness_LoadedDigestIsTruncated :
    smallState.cfg.Legal ∧ digestH14.length = 20 ∧ 15 ≤ 15 ∧ 15 = (digestH14.getD 19 0#8).toNat % 16 ∧
    5 = (digestH14.getD 15 0#8).toNat % 128 * 2 ^ 24 + (digestH14.getD (15 + 1) 0#8).toNat * 2 ^ 16
      + (digestH14.getD (15 + 2) 0#8).toNat * 2 ^ 8 + (digestH14.getD (15 + 3) 0#8).toNat := by
  decide

end Sys2Proof.Machine
end

/-! ## Scope: the idle step and the invariant

The invariant of the block (`State.Inv`) is kept by each operation that a host step is made of; `perform_cases`,
`exec_cases` and `step_cases` then put a step together from them. Its one substantial part is that every output fits in
`OBUF` (rule R18), which rests on the bounds of rule R5 and on the lengths of rule R110. -/

namespace Sys2Proof.Machine

/-! ### The length of an output -/

@[simp] theorem Memory.length_ofBytes (bs : List Byte) : (Memory.ofBytes bs).length = bs.length := by
  rw [← List.length_map Prod.fst, Memory.keys_ofBytes, List.length_range]

/-- A closed window has put out at most 5 bytes for its 8 characters (rule R104). -/
theorem closeWindow_length_le {sc sc' : Scan} {win : List Byte} (h : closeWindow sc win = .ok sc') :
    sc'.out.length ≤ sc.out.length + 5 ∧ sc'.win = [] := by
  unfold closeWindow at h
  split at h
  · cases h; simp
  · split at h
    · cases h
    · split at h
      · cases h
      · cases h; simp

/-- One character is worth at most 5 bits of output: with 8 bits for a byte put out and 5 bits for a character that
waits in the window, a push gains at most 5 (rule R110). -/
theorem pushChar_length_le {sc sc' : Scan} {c : Byte} (h : pushChar sc c = .ok sc') :
    8 * sc'.out.length + 5 * sc'.win.length ≤ 8 * sc.out.length + 5 * sc.win.length + 5 := by
  unfold pushChar at h
  split_ifs at h with _ hfull
  · obtain ⟨hout, hwin⟩ := closeWindow_length_le h
    simp only [List.length_append, List.length_singleton] at hfull
    simp only [hwin, List.length_nil]
    omega
  · cases h
    simp only [List.length_append, List.length_singleton]
    omega

theorem scanChar_length_le {sc sc' : Scan} {c : Byte} (h : scanChar sc c = .ok sc') :
    8 * sc'.out.length + 5 * sc'.win.length ≤ 8 * sc.out.length + 5 * sc.win.length + 5 := by
  unfold scanChar at h
  split at h
  · cases h; omega
  · cases h
  · exact pushChar_length_le h
  · exact pushChar_length_le h

theorem scanChars_length_le {sc : Scan} {cs out : List Byte} (h : scanChars sc cs = .ok out) :
    8 * out.length ≤ 8 * sc.out.length + 5 * sc.win.length + 5 * cs.length := by
  induction cs generalizing sc with
  | nil =>
    unfold scanChars at h
    split_ifs at h
    cases h; omega
  | cons c cs ih =>
    unfold scanChars at h
    split at h
    · rename_i sc' hsc
      have := scanChar_length_le hsc
      have := ih h
      simp only [List.length_cons]
      omega
    · cases h

/-- A decoded sequence has at most 5 bytes for 8 characters (rule R110). -/
theorem decodeChars_length_le {cs out : List Byte} (h : decodeChars cs = .ok out) : 8 * out.length ≤ 5 * cs.length := by
  simpa using scanChars_length_le h

/-- The decoder answers well-formed commands only: `ARG` has four bits (rules R60 and R63). -/
theorem wellFormed_of_decode {w : Word} {i : Instr} (h : decode w = .command i) : i.WellFormed := by
  obtain ⟨-, ⟨-, -, rfl⟩ | ⟨-, -, rfl⟩ | ⟨-, -, rfl⟩ | ⟨-, -, rfl⟩ | ⟨-, -, rfl⟩ | ⟨-, rfl⟩⟩ := decode_command_cases h
  · rfl
  · rfl
  · rfl
  · rfl
  · rfl
  · exact Laws.htrunc_wellFormed.mpr (Nat.le_of_lt_succ (argOf w).isLt)

theorem obuf_length_le_of_succeed {out : List Byte} {s t : State} {n : Nat} (h : succeed out s = .next t)
    (hn : out.length ≤ n) : t.obuf.length ≤ n := by
  cases h
  simpa using hn

theorem obuf_length_le_of_raise {e : CommandError} {s t : State} (n : Nat) (h : raise e s = .next t) :
    t.obuf.length ≤ n := by
  cases h
  simp

theorem obuf_length_le_of_finish {r : Except CommandError (List Byte)} {s t : State} {n : Nat} (h : finish r s = .next t)
    (hn : ∀ out, r = .ok out → out.length ≤ n) : t.obuf.length ≤ n := by
  obtain ⟨out, hr, rfl⟩ | ⟨e, -, rfl⟩ := finish_cases h
  · simpa using hn out hr
  · simp

/-- The output of a well-formed command fits in `OBUF` (rules R5, R18 and R110). -/
theorem exec_obuf_length_le {i : Instr} {s t : State} (hc : s.cfg.Legal) (hi : i.WellFormed) (h : exec i s = .next t) :
    t.obuf.length ≤ s.cfg.nOut := by
  obtain ⟨-, -, -, hOut, -⟩ := hc
  cases i with
  | b32encc =>
    simp only [exec, execB32encc] at h
    split at h
    · exact obuf_length_le_of_succeed h (by simp; omega)
    · exact obuf_length_le_of_raise _ h
  | b32decc =>
    simp only [exec, execB32decc] at h
    split at h
    · refine obuf_length_le_of_finish h fun out hr => ?_
      cases hg : chunkGroups (inputBytes s) with
      | ok g => rw [hg] at hr; cases hr; simp; omega
      | error e => rw [hg] at hr; cases hr
    · exact obuf_length_le_of_raise _ h
  | b32enc =>
    simp only [exec, execB32enc] at h
    split at h
    · exact obuf_length_le_of_succeed h (by simp; omega)
    · exact obuf_length_le_of_raise _ h
  | b32dec =>
    simp only [exec, execB32dec] at h
    split at h
    · refine obuf_length_le_of_finish h fun out hr => ?_
      have := decodeChars_length_le hr
      rw [inputBytes_length] at this
      omega
    · exact obuf_length_le_of_raise _ h
  | ctrser =>
    exact obuf_length_le_of_succeed (show succeed _ s = .next t from h) (by simp; omega)
  | htrunc l =>
    have hl := Laws.htrunc_wellFormed.mp hi
    simp only [exec, execHtrunc] at h
    split at h
    · exact obuf_length_le_of_succeed h (by simp; omega)
    · exact obuf_length_le_of_raise _ h

/-! ### What each operation does to the invariant -/

/-- The host's schedule is no part of the invariant (log 1). -/
@[simp] theorem inv_setScript (s : State) (rest : List HostStep) : { s with script := rest }.Inv ↔ s.Inv := Iff.rfl

@[simp] theorem inv_receive (v : Word) (s : State) : (receive v s).Inv ↔ s.Inv := Iff.rfl

@[simp] theorem inv_writeTruncation (l o : Nat) (p : Word) (s : State) : (writeTruncation l o p s).Inv ↔ s.Inv := Iff.rfl

/-- The host stores into `ILEN` and the counter only, of which the invariant says nothing (rules R15 and R19). -/
@[simp] theorem inv_writeReg (r : Reg) (v : Word) (s : State) : (writeReg r v s).Inv ↔ s.Inv := by
  cases r <;> exact Iff.rfl

theorem inv_writeIbuf {s : State} (h : s.Inv) {i : Nat} (hi : i < s.cfg.nIn) (b : Byte) : (writeIbuf i b s).Inv := by
  obtain ⟨hc, hst, hle, hz, hwf, hib, hob⟩ := h
  exact ⟨hc, hst, hle, hz, Memory.wf_put hwf i b, Memory.put_bound hib hi, hob⟩

theorem inv_resetEvent {s : State} (h : s.Inv) : (resetEvent s).Inv := by
  obtain ⟨hc, -⟩ := h
  exact ⟨hc, .inl rfl, Nat.zero_le _, fun _ => rfl, .nil, List.forall_mem_nil _, rfl⟩

theorem statusLegal_statusError (e : CommandError) : StatusLegal (statusError e) := by
  cases e <;> decide

theorem inv_raised {s : State} (h : s.Inv) (e : CommandError) : (raised e s).Inv := by
  obtain ⟨hc, -, -, -, hwf, hib, -⟩ := h
  exact ⟨hc, statusLegal_statusError e, Nat.zero_le _, fun _ => rfl, hwf, hib, rfl⟩

theorem inv_succeeded {s : State} (h : s.Inv) {out : List Byte} (hlen : out.length ≤ s.cfg.nOut) :
    (succeeded out s).Inv := by
  obtain ⟨hc, -, -, -, hwf, hib, -⟩ := h
  have holen : (succeeded out s).olen.toNat = out.length := by
    obtain ⟨-, -, -, -, hmax⟩ := hc
    rw [succeeded_olen_eq, BitVec.toNat_ofNat, Nat.mod_eq_of_lt (by omega)]
  refine ⟨hc, .inr (.inl rfl), holen ▸ hlen, fun hne => absurd rfl hne, hwf, hib, ?_⟩
  rw [holen, succeeded_obuf_eq, Memory.keys_ofBytes]

/-! ### Commands, host steps, steps -/

theorem inv_exec {i : Instr} {s t : State} (hs : s.Inv) (hi : i.WellFormed) (h : exec i s = .next t) : t.Inv := by
  have hlen := exec_obuf_length_le hs.1 hi h
  obtain ⟨e, he⟩ | ⟨out, he⟩ | ⟨l, o, p, out, -, he⟩ := exec_cases i s
  · cases he.symm.trans h
    exact inv_raised hs e
  · cases he.symm.trans h
    exact inv_succeeded hs (by simpa using hlen)
  · cases he.symm.trans h
    exact inv_succeeded ((inv_writeTruncation l o p s).mpr hs) (by simpa using hlen)

theorem inv_perform {a : HostStep} {s t : State} (hs : s.Inv) (h : perform a s = .next t) : t.Inv := by
  obtain ⟨v, rfl⟩ | ⟨r, v, rfl⟩ | ⟨i, b, hi, rfl⟩ | ⟨w, i, hw, he⟩ | rfl | rfl := perform_cases h
  · exact (inv_receive v s).mpr hs
  · exact (inv_writeReg r v s).mpr hs
  · exact inv_writeIbuf hs hi b
  · exact inv_exec hs (wellFormed_of_decode hw) he
  · exact inv_raised hs .illegalCommand
  · exact inv_resetEvent hs

theorem inv_step {s t : State} (hs : s.Inv) (h : step s = .next t) : t.Inv := by
  obtain ⟨-, rfl⟩ | ⟨a, rest, -, hp⟩ := step_cases h
  · exact hs
  · exact inv_perform ((inv_setScript s rest).mpr hs) hp

theorem step_of_script_nil {s : State} (h : s.script = []) : step s = .next s := by
  simp only [step, hostTurn, h]

/-! ### The obligations -/

/-- Settles O8: with nothing left in the script the host's turn is idle. -/
theorem stepWithoutHostAccess : Obligations.StepWithoutHostAccess := fun _ => step_of_script_nil

/-- Settles O40: every operation a host step is made of keeps the invariant; a command's output fits in `OBUF`. -/
theorem stepKeepsInvariant : Obligations.StepKeepsInvariant := fun _ _ => inv_step

end Sys2Proof.Machine

/-! ## State: the command frame, the registers and buffers as the host sees them, reset

A step is `perform` of the script's head (`step_of_script_cons`), and a 4-byte write of `CMD` is `commandFrame`
(`perform_writeCmd`). `commandFrame_cases` says how a command word can end; from it and the bound on `OBUF` above, the
statement about every command is put together. -/

namespace Sys2Proof.Machine

/-! ### Steps and the command frame -/

theorem step_of_script_cons {s : State} {a : HostStep} {rest : List HostStep} (h : s.script = a :: rest) :
    step s = perform a { s with script := rest } := by
  simp only [step, hostTurn, h]

theorem commandFrame_of_command {w : Word} {i : Instr} (h : decode w = .command i) (s : State) :
    commandFrame w s = exec i s := by
  simp only [commandFrame, h]

theorem commandFrame_of_illegal {w : Word} {why : IllegalWord} (h : decode w = .illegal why) (s : State) :
    commandFrame w s = .next (raised .illegalCommand s) := by
  simp only [commandFrame, h, raise]

/-- A write of `CMD` is a whole command (rules R13 and R41). -/
theorem perform_writeCmd (s : State) (w : Word) :
    perform (.memWrite (s.cfg.base + 0x000) 4 w) s = commandFrame w s :=
  perform_writeReg s .cmd w

/-- Every word either raises an error or succeeds, the success from the state with the truncation registers written only
where the word is an `HTRUNC` (rules R71 and R124). -/
theorem commandFrame_cases (w : Word) (s : State) :
    (∃ e, commandFrame w s = .next (raised e s)) ∨
    ∃ out s', commandFrame w s = .next (succeeded out s') ∧
      (s' = s ∨ ∃ l o p, decode w = .command (.htrunc l) ∧ s' = writeTruncation l o p s) := by
  cases hw : decode w with
  | illegal why => exact .inl ⟨_, commandFrame_of_illegal hw s⟩
  | command i =>
    rw [commandFrame_of_command hw]
    obtain ⟨e, he⟩ | ⟨out, he⟩ | ⟨l, o, p, out, rfl, he⟩ := exec_cases i s
    · exact .inl ⟨e, he⟩
    · exact .inr ⟨out, s, he, .inl rfl⟩
    · exact .inr ⟨out, _, he, .inr ⟨l, o, p, rfl, rfl⟩⟩

/-! ### `STATUS` after a command -/

/-- The fields of `STATUS` as rule R14 has them after a command: `DONE` set, `ERR` equal to `ERRCODE != 0`, the reserved
bits 0, a code of rule R140. -/
abbrev StatusOfCommand (w : Word) : Prop :=
  statusDone w = true ∧ statusErr w = decide (statusErrCode w ≠ 0#4) ∧
  w.extractLsb' 2 2 = 0#2 ∧ w.extractLsb' 8 24 = 0#24 ∧ (statusErrCode w).toNat ≤ 4

theorem statusOfCommand_statusSuccess : StatusOfCommand statusSuccess := by decide

theorem statusOfCommand_statusError (e : CommandError) : StatusOfCommand (statusError e) := by
  cases e <;> decide

/-! ### `OBUF` after a command -/

theorem succeeded_olen_toNat {out : List Byte} (h : out.length < 2 ^ 16) (s : State) :
    (succeeded out s).olen.toNat = out.length := by
  rw [succeeded_olen_eq, BitVec.toNat_ofNat, Nat.mod_eq_of_lt h]

theorem commandFrame_obuf_length_le {w : Word} {s t : State} (hc : s.cfg.Legal) (h : commandFrame w s = .next t) :
    t.obuf.length ≤ s.cfg.nOut := by
  cases hw : decode w with
  | command i =>
    rw [commandFrame_of_command hw] at h
    exact exec_obuf_length_le hc (wellFormed_of_decode hw) h
  | illegal why =>
    rw [commandFrame_of_illegal hw] at h
    exact obuf_length_le_of_raise _ h

/-- `OLEN` holds the whole length of a command's output, since `N_OUT` is at most 2048 (rule R5), so no byte from `OLEN`
on is defined (rule R17). -/
theorem get_obuf_of_succeeded {w : Word} {s s' : State} {out : List Byte} (hc : s.cfg.Legal)
    (h : commandFrame w s = .next (succeeded out s')) {j : Nat} (hj : (succeeded out s').olen.toNat ≤ j) :
    Memory.get (succeeded out s').obuf j = none := by
  have hle : out.length ≤ s.cfg.nOut := by simpa using commandFrame_obuf_length_le hc h
  obtain ⟨-, -, -, -, hmax⟩ := hc
  rw [succeeded_olen_toNat (by omega)] at hj
  rw [succeeded_obuf_eq, Memory.get_ofBytes, List.getElem?_eq_none hj]

/-! ### What a command keeps -/

theorem operandsKept_raised (e : CommandError) (s : State) : OperandsKept s (raised e s) :=
  ⟨rfl, rfl, rfl, fun _ => rfl, rfl, rfl, rfl⟩

theorem truncationKept_raised (e : CommandError) (s : State) : TruncationKept s (raised e s) := ⟨rfl, rfl, rfl⟩

theorem operandsKept_succeeded (out : List Byte) (s : State) : OperandsKept s (succeeded out s) :=
  ⟨rfl, rfl, rfl, fun _ => rfl, rfl, rfl, rfl⟩

theorem truncationKept_succeeded (out : List Byte) (s : State) : TruncationKept s (succeeded out s) := ⟨rfl, rfl, rfl⟩

theorem operandsKept_succeeded_writeTruncation (out : List Byte) (l o : Nat) (p : Word) (s : State) :
    OperandsKept s (succeeded out (writeTruncation l o p s)) :=
  ⟨rfl, rfl, rfl, fun _ => rfl, rfl, rfl, rfl⟩

/-! ### Registers and buffers -/

/-- The registers of rule R43 in the order of their offsets. -/
def registers : List Reg := [.cmd, .status, .ilen, .olen, .ctrLo, .ctrHi, .offset, .trunc, .code]

/-- A listed index has a defined byte. -/
theorem Memory.exists_get_of_mem {m : Memory} {a : Nat} (h : a ∈ m.map Prod.fst) : ∃ b, Memory.get m a = some b := by
  induction m with
  | nil => cases h
  | cons c m ih =>
    obtain ⟨k, v⟩ := c
    by_cases hk : k = a
    · exact ⟨v, if_pos hk⟩
    · obtain ⟨b, hb⟩ := ih (by simpa [Ne.symm hk] using h)
      exact ⟨b, (if_neg hk).trans hb⟩

/-- Below `OLEN` every byte of `OBUF` is defined (rule R17). -/
theorem exists_get_obuf_of_inv {s : State} (hs : s.Inv) {i : Nat} (h : i < s.olen.toNat) :
    ∃ b, Memory.get s.obuf i = some b := by
  obtain ⟨-, -, -, -, -, -, hkeys⟩ := hs
  exact Memory.exists_get_of_mem (hkeys ▸ List.mem_range.mpr h)

@[simp] theorem ibufByte_writeIbuf_same (i : Nat) (b : Byte) (s : State) : ibufByte (writeIbuf i b s) i = b :=
  ibufByte_of_get (Memory.get_put_same s.ibuf i b)

/-- A byte on the bus comes back as it was sent (log 10). -/
theorem setWidth_byte_word (b : Byte) : (b.setWidth 32).setWidth 8 = b := by
  rw [BitVec.setWidth_setWidth_of_le b (by decide), BitVec.setWidth_eq]

/-! ### Reset -/

/-- A block with legal parameters meets the invariant after reset, whatever its free registers hold (rule R26). -/
theorem inv_afterReset {c : Config} (hc : c.Legal) (draw : Nat) (script : List HostStep) (received : List Word) :
    (State.afterReset c draw script received).Inv :=
  ⟨hc, .inl rfl, Nat.zero_le _, fun _ => rfl, .nil, List.forall_mem_nil _, rfl⟩

/-! ### The obligations -/

/-- Settles O24: by the cases of the command frame, an error, a success, or the success of an `HTRUNC`. -/
theorem everyCommandCompletes : Obligations.EveryCommandCompletes := by
  intro s w
  rw [perform_writeCmd]
  obtain ⟨e, h⟩ | ⟨out, s', h, hs'⟩ := commandFrame_cases w s
  · obtain ⟨hdone, herr, hlow, hhigh, hcode⟩ := statusOfCommand_statusError e
    exact ⟨raised e s, h, operandsKept_raised e s, hdone, herr, hlow, hhigh, hcode, fun _ _ _ => rfl,
      fun _ => truncationKept_raised e s, fun _ => truncationKept_raised e s⟩
  · obtain ⟨hdone, herr, hlow, hhigh, hcode⟩ := statusOfCommand_statusSuccess
    have hobuf : s.cfg.Legal → ∀ j, (succeeded out s').olen.toNat ≤ j → Memory.get (succeeded out s').obuf j = none :=
      fun hc _ => get_obuf_of_succeeded hc h
    obtain rfl | ⟨l, o, p, hw, rfl⟩ := hs'
    · exact ⟨_, h, operandsKept_succeeded out s', hdone, herr, hlow, hhigh, hcode, hobuf,
        fun _ => truncationKept_succeeded out s', fun _ => truncationKept_succeeded out s'⟩
    · exact ⟨_, h, operandsKept_succeeded_writeTruncation out l o p s, hdone, herr, hlow, hhigh, hcode, hobuf,
        fun hno => absurd hw (hno l), fun hne => absurd rfl hne⟩

/-- Settles O33: the write is `writeIbuf`, whose byte the read returns. -/
theorem inputByteReadsBack : Obligations.InputByteReadsBack := by
  intro s i b hc hi
  refine ⟨writeIbuf i b s, receive (b.setWidth 32) (writeIbuf i b s), ?_, ?_, rfl, ?_, rfl⟩
  · exact (perform_writeInput hc hi _).trans (by rw [setWidth_byte_word])
  · exact (perform_readInput (s := writeIbuf i b s) hc hi).trans (by rw [ibufByte_writeIbuf_same])
  · exact fun a ha => Memory.get_put_other s.ibuf b ha

/-- Settles O34: the read returns `obufByte`, and below `OLEN` the invariant lists that byte. -/
theorem outputByteReads : Obligations.OutputByteReads := by
  intro s i hs hi
  refine ⟨_, (obufByte s i).setWidth 32, perform_readOutput hs.1 hi, rfl, fun hlt => ?_⟩
  obtain ⟨b, hb⟩ := exists_get_obuf_of_inv hs hlt
  exact ⟨b, hb, by rw [obufByte_of_get hb]⟩

/-- Settles O9: the step performs the write of `CMD`, whose frame runs the decoded command. -/
theorem stepRunsDecodedCommand : Obligations.StepRunsDecodedCommand := by
  intro s w i rest hscript hw
  rw [step_of_script_cons hscript, ← commandFrame_of_command hw]
  exact perform_writeCmd { s with script := rest } w

/-- Settles O29: the table of the statement is offset and value of each register. -/
theorem registerReadValues : Obligations.RegisterReadValues := by
  intro s off v h
  have htable : (off, v) ∈ registers.map fun r => (regOffset r, readReg s r) := h
  obtain ⟨r, -, hr⟩ := List.mem_map.mp htable
  cases hr
  exact ⟨receive (readReg s r) s, perform_readReg s r, rfl⟩

/-- Settles O32: each write is `writeReg` of its register. -/
theorem operandRegisterWrites : Obligations.OperandRegisterWrites := by
  intro s v
  refine ⟨?_, perform_writeReg s .ctrLo v, perform_writeReg s .ctrHi v⟩
  rw [BitVec.ofNat_toNat]
  exact perform_writeReg s .ilen v

/-- Settles O38: the step performs `resetEvent`. -/
theorem resetEventState : Obligations.ResetEventState := by
  intro s rest h
  exact ⟨resetEvent { s with script := rest }, step_of_script_cons h, rfl, rfl, rfl, fun _ => ⟨rfl, rfl⟩, rfl, rfl, rfl⟩

/-- Settles O39: the default parameters are legal. -/
theorem resetMeetsInvariant : Obligations.ResetMeetsInvariant :=
  ⟨inv_afterReset (by decide) 0 [] [], rfl, rfl, rfl, rfl, rfl⟩

end Sys2Proof.Machine

/-! ## Memory: the address map, who may write what, and what a command reads

Every access is decided by its place (`locate`): the lemmas below say which places refuse (rules R44 and R48) and that
only one address is `CMD`'s. From the two inversions `memRead_cases` and `memWrite_cases` follow the frames of rules R45
and R54. A command reads its operands only (rule R42): `exec_endAlike` runs it in two states that share them. -/

namespace Sys2Proof.Machine

/-! ### Where an access goes -/

theorem locate_base_add {c : Config} {off : Nat} (h : off < windowBytes) (n : Nat) :
    locate c (c.base + off) n = locateOffset c off n := by
  rw [locate, if_pos ⟨by omega, by omega⟩, Nat.add_sub_cancel_left]

theorem locate_of_outside {c : Config} {addr : Nat} (h : addr < c.base ∨ c.base + windowBytes ≤ addr) (n : Nat) :
    locate c addr n = .outside := by
  rw [locate, if_neg (by omega)]

/-- The reserved ranges of rule R43. -/
abbrev ReservedOffset (c : Config) (off : Nat) : Prop :=
  0x024 ≤ off ∧ off < 0x400 ∨ 0x400 + c.nIn ≤ off ∧ off < 0x800 ∨ 0x800 + c.nOut ≤ off ∧ off < 0x1000

theorem locate_of_reserved {c : Config} {off : Nat} (hc : c.Legal) (h : ReservedOffset c off) (n : Nat) :
    locate c (c.base + off) n = .reserved := by
  obtain ⟨-, -, hIn, -, -⟩ := hc
  rw [locate_base_add (by simp only [windowBytes]; omega)]
  unfold locateOffset ibufOffset obufOffset
  obtain ⟨hlo, hhi⟩ | ⟨hlo, hhi⟩ | ⟨hlo, hhi⟩ := h
  · rw [if_neg (by omega), if_pos hhi]
  · rw [if_neg (by omega), if_neg (by omega), if_neg (by omega), if_pos hhi]
  · rw [if_neg (by omega), if_neg (by omega), if_neg (by omega), if_neg (by omega), if_neg (by omega)]

/-- The forms of access that rule R44 leaves undefined. -/
abbrev UndefinedAccess (c : Config) (off n : Nat) : Prop :=
  off < 0x024 ∧ ¬ (n = 4 ∧ off % 4 = 0) ∨ 0x400 ≤ off ∧ off < 0x400 + c.nIn ∧ n ≠ 1 ∨
    0x800 ≤ off ∧ off < 0x800 + c.nOut ∧ n ≠ 1

theorem locate_of_undefined {c : Config} {off n : Nat} (hc : c.Legal) (h : UndefinedAccess c off n) :
    locate c (c.base + off) n = .undefined := by
  obtain ⟨-, -, hIn, -, hOut⟩ := hc
  rw [locate_base_add (by simp only [windowBytes]; omega)]
  unfold locateOffset ibufOffset obufOffset
  obtain ⟨hlt, hform⟩ | ⟨hlo, hhi, hwidth⟩ | ⟨hlo, hhi, hwidth⟩ := h
  · rw [if_pos hlt, if_neg hform]
  · rw [if_neg (by omega), if_neg (by omega), if_pos hhi, if_neg hwidth]
  · rw [if_neg (by omega), if_neg (by omega), if_neg (by omega), if_neg (by omega), if_pos hhi, if_neg hwidth]

theorem regOffset_regAt {off : Nat} (hlt : off < 0x024) (hal : off % 4 = 0) : regOffset (regAt off) = off := by
  have table : ∀ k < 9, regOffset (regAt (4 * k)) = 4 * k := by decide
  have hoff : off = 4 * (off / 4) := by omega
  rw [hoff]
  exact table _ (by omega)

/-- A register has one address and one width (rules R43 and R44). -/
theorem regAddr_of_locate {c : Config} {addr n : Nat} {r : Reg} (h : locate c addr n = .register r) :
    addr = regAddr c r ∧ n = 4 := by
  unfold locate locateOffset at h
  split_ifs at h with hwin hlt haccess
  obtain ⟨hn, hal⟩ := haccess
  cases h
  rw [regAddr, regOffset_regAt hlt hal]
  exact ⟨by omega, hn⟩

/-! ### What a host access can do -/

theorem memRead_cases {addr n : Nat} {s t : State} (h : memRead addr n s = .next t) : ∃ v, t = receive v s := by
  unfold memRead at h
  split at h
  · cases h; exact ⟨_, rfl⟩
  · cases h; exact ⟨_, rfl⟩
  · cases h; exact ⟨_, rfl⟩
  · cases h
  · cases h
  · cases h

/-- Only `CMD` starts something when it is written (rules R41 and R45). -/
theorem regWrite_of_ne_cmd {r : Reg} (h : r ≠ .cmd) (v : Word) (s : State) : regWrite r v s = .next (writeReg r v s) := by
  cases r with
  | cmd => exact absurd rfl h
  | _ => rfl

theorem memWrite_cases {addr n : Nat} {v : Word} {s t : State} (h : memWrite addr n v s = .next t) :
    (addr = regAddr s.cfg .cmd ∧ n = 4 ∧ commandFrame v s = .next t) ∨
    (∃ r, t = writeReg r v s) ∨
    (∃ i, t = writeIbuf i (v.setWidth 8) s) ∨
    t = s := by
  unfold memWrite at h
  split at h
  next r hr =>
    by_cases hcmd : r = .cmd
    · subst hcmd
      obtain ⟨haddr, hn⟩ := regAddr_of_locate hr
      exact .inl ⟨haddr, hn, h⟩
    · rw [regWrite_of_ne_cmd hcmd] at h
      cases h; exact .inr (.inl ⟨r, rfl⟩)
  next i _ => cases h; exact .inr (.inr (.inl ⟨i, rfl⟩))
  next => cases h; exact .inr (.inr (.inr rfl))
  next => cases h
  next => cases h
  next => cases h

/-! ### Who writes which place -/

/-- The places that only the block writes, apart from reset, are as before (rule R54). -/
abbrev ResultsKept (s t : State) : Prop :=
  t.obuf = s.obuf ∧ t.olen = s.olen ∧ t.status = s.status ∧ TruncationKept s t

theorem resultsKept_writeReg (r : Reg) (v : Word) (s : State) : ResultsKept s (writeReg r v s) := by
  cases r <;> exact ⟨rfl, rfl, rfl, rfl, rfl, rfl⟩

theorem resultsKept_memWrite {addr n : Nat} {v : Word} {s t : State}
    (hcmd : ∀ w, HostStep.memWrite addr n v ≠ .memWrite (s.cfg.base + 0x000) 4 w) (h : memWrite addr n v s = .next t) :
    ResultsKept s t := by
  obtain ⟨rfl, rfl, -⟩ | ⟨r, rfl⟩ | ⟨i, rfl⟩ | rfl := memWrite_cases h
  · exact absurd rfl (hcmd v)
  · exact resultsKept_writeReg r v s
  · exact ⟨rfl, rfl, rfl, rfl, rfl, rfl⟩
  · exact ⟨rfl, rfl, rfl, rfl, rfl, rfl⟩

/-- No command writes an operand (rules R11, R16 and R54). -/
theorem commandFrame_keeps_operands {w : Word} {s t : State} (h : commandFrame w s = .next t) :
    t.ibuf = s.ibuf ∧ t.ilen = s.ilen ∧ t.ctrLo = s.ctrLo ∧ t.ctrHi = s.ctrHi := by
  obtain ⟨e, he⟩ | ⟨out, s', he, rfl | ⟨l, o, p, -, rfl⟩⟩ := commandFrame_cases w s
  all_goals
    cases he.symm.trans h
    exact ⟨rfl, rfl, rfl, rfl⟩

/-! ### Read-only registers and reserved bits -/

/-- The registers that the host may only read (rule R46). -/
def readOnlyRegisters : List Reg := [.status, .olen, .offset, .trunc, .code]

theorem regWrite_readOnly {r : Reg} (h : r ∈ readOnlyRegisters) (v : Word) (s : State) : regWrite r v s = .next s := by
  simp only [readOnlyRegisters, List.mem_cons, List.not_mem_nil, or_false] at h
  obtain rfl | rfl | rfl | rfl | rfl := h <;> rfl

/-- The registers that have reserved bits, each with the mask of these (rules R14 to R22). -/
def reservedMasks : List (Reg × Nat) :=
  [(.status, 0xFFFFFF0C), (.ilen, 0xFFFF0000), (.olen, 0xFFFF0000), (.offset, 0xFFFFFFF0), (.trunc, 0x80000000),
    (.code, 0x80000000)]

/-- A value zero-extended from `k` bits has no bit in common with a mask whose low `k` bits are 0. -/
theorem setWidth_and_eq_zero {k : Nat} (x : BitVec k) {m : Word} (h : m.toNat % 2 ^ k = 0) :
    x.setWidth 32 &&& m = 0#32 := by
  ext i hi
  by_cases hk : i < k
  · have hbit : m.toNat.testBit i = false := by
      simpa [hk, h] using (Nat.testBit_mod_two_pow m.toNat k i).symm
    simp [← BitVec.getLsbD_eq_getElem, BitVec.getLsbD, hbit]
  · simp [BitVec.getLsbD_of_ge x i (by omega)]

theorem status_reserved_of_legal {w : Word} (h : StatusLegal w) : w &&& 0xFFFFFF0C#32 = 0#32 := by
  obtain rfl | rfl | rfl | rfl | rfl | rfl := h <;> decide

theorem readReg_reserved {s : State} (hs : s.Inv) {r : Reg} {mask : Nat} (h : (r, mask) ∈ reservedMasks) :
    readReg s r &&& BitVec.ofNat 32 mask = 0#32 := by
  obtain ⟨-, hstatus, -⟩ := hs
  simp only [reservedMasks, List.mem_cons, List.not_mem_nil, or_false, Prod.mk.injEq] at h
  obtain ⟨rfl, rfl⟩ | ⟨rfl, rfl⟩ | ⟨rfl, rfl⟩ | ⟨rfl, rfl⟩ | ⟨rfl, rfl⟩ | ⟨rfl, rfl⟩ := h
  · exact status_reserved_of_legal hstatus
  · exact setWidth_and_eq_zero s.ilen (by decide)
  · exact setWidth_and_eq_zero s.olen (by decide)
  · exact setWidth_and_eq_zero s.offset (by decide)
  · exact setWidth_and_eq_zero s.trunc (by decide)
  · exact setWidth_and_eq_zero s.code (by decide)

/-- A bit in 31:12 makes a word illegal, whatever its other fields are (rule R64). -/
theorem decode_of_reservedBits {w : Word} (h : w.toNat / 2 ^ 12 ≠ 0) : decode w = .illegal .reservedBits := by
  have hrsv : rsvOf w ≠ 0#20 := fun h0 => h (by rw [← rsvOf_toNat, h0]; rfl)
  rw [decode, if_pos hrsv]

theorem failsWith_raised (e : CommandError) (s : State) : FailsWith (statusError e) s (raised e s) :=
  ⟨rfl, rfl, fun _ => rfl, operandsKept_raised e s, truncationKept_raised e s⟩

/-! ### What a command reads -/

/-- The states agree on everything that a command's rule reads (rule R42): the parameters, `ILEN`, the input and the
counter. -/
structure SameOperands (s s' : State) : Prop where
  cfg : s'.cfg = s.cfg
  ilen : s'.ilen = s.ilen
  input : inputBytes s' = inputBytes s
  counter : counterValue s' = counterValue s

/-- One and the same way of ending a command, in two states: the same error, or the same output and the same values
for the truncation registers. -/
inductive EndAlike (s s' : State) : Host.Outcome State Fault Refusal → Host.Outcome State Fault Refusal → Prop
  | raise (e : CommandError) : EndAlike s s' (raise e s) (raise e s')
  | succeed (out : List Byte) : EndAlike s s' (succeed out s) (succeed out s')
  | truncate (l o : Nat) (p : Word) (out : List Byte) :
    EndAlike s s' (succeed out (writeTruncation l o p s)) (succeed out (writeTruncation l o p s'))

theorem EndAlike.finish {s s' : State} (r : Except CommandError (List Byte)) : EndAlike s s' (finish r s) (finish r s') := by
  cases r with
  | ok out => exact .succeed out
  | error e => exact .raise e

theorem inputBytes_congr {s s' : State} (hilen : s'.ilen = s.ilen)
    (h : ∀ i, i < s.ilen.toNat → ibufByte s' i = ibufByte s i) : inputBytes s' = inputBytes s := by
  rw [inputBytes, inputBytes, hilen]
  exact List.map_congr_left fun i hi => h i (List.mem_range.mp hi)

theorem SameOperands.lengthFits_iff {s s' : State} (h : SameOperands s s') : LengthFits s ↔ LengthFits s' := by
  rw [LengthFits, LengthFits, h.cfg, h.ilen]

theorem SameOperands.lengthIs_iff {s s' : State} (h : SameOperands s s') (n : Nat) : LengthIs n s ↔ LengthIs n s' := by
  rw [LengthIs, LengthIs, h.cfg, h.ilen]

/-- A command that raises `e` unless a check on its operands holds. -/
theorem EndAlike.guarded {s s' : State} {c c' : Prop} [Decidable c] [Decidable c'] (hc : c ↔ c') {e : CommandError}
    {o o' : Host.Outcome State Fault Refusal} (h : EndAlike s s' o o') :
    EndAlike s s' (if c then o else Machine.raise e s) (if c' then o' else Machine.raise e s') := by
  by_cases hs : c
  · rw [if_pos hs, if_pos (hc.mp hs)]
    exact h
  · rw [if_neg hs, if_neg (mt hc.mpr hs)]
    exact .raise e

theorem exec_endAlike {s s' : State} (h : SameOperands s s') (i : Instr) : EndAlike s s' (exec i s) (exec i s') := by
  cases i with
  | b32encc =>
    simp only [exec, execB32encc, h.input]
    exact .guarded (h.lengthIs_iff 5) (.succeed _)
  | b32decc =>
    simp only [exec, execB32decc, h.input]
    exact .guarded (h.lengthIs_iff 8) (.finish _)
  | b32enc =>
    simp only [exec, execB32enc, h.input]
    exact .guarded h.lengthFits_iff (.succeed _)
  | b32dec =>
    simp only [exec, execB32dec, h.input]
    exact .guarded h.lengthFits_iff (.finish _)
  | ctrser =>
    simp only [exec, execCtrser, h.counter]
    exact .succeed _
  | htrunc l =>
    simp only [exec, execHtrunc, h.input]
    exact .guarded (h.lengthIs_iff 20) (.truncate _ _ _ _)

theorem commandFrame_endAlike {s s' : State} (h : SameOperands s s') (w : Word) :
    EndAlike s s' (commandFrame w s) (commandFrame w s') := by
  unfold commandFrame
  split
  · exact exec_endAlike h _
  · exact .raise _

/-- States after a command that ended alike hold the same results. -/
theorem EndAlike.results {s s' : State} {o o' : Host.Outcome State Fault Refusal} (h : EndAlike s s' o o') :
    ∃ t t', o = .next t ∧ o' = .next t' ∧ t'.status = t.status ∧ t'.olen = t.olen ∧ t'.obuf = t.obuf ∧
      ((TruncationKept s t ∧ TruncationKept s' t') ∨ TruncationKept t t') := by
  cases h with
  | raise e =>
    exact ⟨_, _, rfl, rfl, rfl, rfl, rfl, .inl ⟨truncationKept_raised e s, truncationKept_raised e s'⟩⟩
  | succeed out =>
    exact ⟨_, _, rfl, rfl, rfl, rfl, rfl, .inl ⟨truncationKept_succeeded out s, truncationKept_succeeded out s'⟩⟩
  | truncate l o p out => exact ⟨_, _, rfl, rfl, rfl, rfl, rfl, .inr ⟨rfl, rfl, rfl⟩⟩

/-! ### The obligations -/

/-- Settles O26: the command frame, run in two states with the same operands, ends alike. -/
theorem commandDependsOnlyOnOperands : Obligations.CommandDependsOnlyOnOperands := by
  intro s s' w hcfg hilen hlo hhi hbytes
  have hsame : SameOperands s s' :=
    ⟨hcfg, hilen, inputBytes_congr hilen hbytes, by rw [counterValue, counterValue, hlo, hhi]⟩
  have hwrite' := perform_writeCmd s' w
  rw [hcfg] at hwrite'
  rw [hwrite', perform_writeCmd]
  exact (commandFrame_endAlike hsame w).results

/-- Settles O28: a read notes a value, a write that is no command stores an operand, and no command writes one. -/
theorem everyPlaceHasOneWriter : Obligations.EveryPlaceHasOneWriter := by
  intro s t h hp
  refine ⟨fun hcmd hreset => ?_, ?_⟩
  · cases h with
    | memRead addr n =>
      obtain ⟨v, rfl⟩ := memRead_cases hp
      exact ⟨rfl, rfl, rfl, rfl, rfl, rfl⟩
    | memWrite addr n v => exact resultsKept_memWrite hcmd hp
    | reset => exact absurd rfl hreset
  · rintro ⟨w, rfl⟩
    rw [perform_writeCmd] at hp
    exact commandFrame_keeps_operands hp

/-- Settles O31: one clause after the other, by the register's offset, its reserved mask or the frame of an illegal
word. -/
theorem accessRights : Obligations.AccessRights := by
  intro s hs
  refine ⟨fun off v hoff => ?_, fun i v hi => perform_writeOutput hs.1 hi v,
    ⟨_, perform_readReg s .cmd, rfl⟩, fun off mask hoff => ?_,
    fun v => ⟨_, perform_writeReg s .ilen v, BitVec.toNat_setWidth 16 v⟩, fun w hw => ?_⟩
  · have htable : off ∈ readOnlyRegisters.map regOffset := hoff
    obtain ⟨r, hr, rfl⟩ := List.mem_map.mp htable
    exact (perform_writeReg s r v).trans (regWrite_readOnly hr v s)
  · have htable : (off, mask) ∈ reservedMasks.map fun e => (regOffset e.1, e.2) := hoff
    obtain ⟨⟨r, mask'⟩, hr, he⟩ := List.mem_map.mp htable
    cases he
    exact ⟨_, readReg s r, perform_readReg s r, rfl, readReg_reserved hs hr⟩
  · rw [perform_writeCmd, commandFrame_of_illegal (decode_of_reservedBits hw)]
    exact ⟨_, rfl, failsWith_raised .illegalCommand s⟩

/-- Settles O35: the address map calls these offsets reserved at every width. -/
theorem reservedOffsetsRefused : Obligations.ReservedOffsetsRefused := by
  intro s off n v hc hoff
  have hplace := locate_of_reserved hc hoff n
  exact ⟨by simp only [perform, memRead, hplace], by simp only [perform, memWrite, hplace]⟩

/-- Settles O36: the address map gives these accesses no place. -/
theorem undefinedAccessesRefused : Obligations.UndefinedAccessesRefused := by
  intro s off n v hc hoff
  have hplace := locate_of_undefined hc hoff
  exact ⟨by simp only [perform, memRead, hplace], by simp only [perform, memWrite, hplace]⟩

/-- Settles O7: the host's turn performs the head of its script. -/
theorem stepPerformsNextHostStep : Obligations.StepPerformsNextHostStep := fun _ _ _ => step_of_script_cons

/-- Settles O30: a read that answers a next state has only noted a value. -/
theorem readsChangeNothing : Obligations.ReadsChangeNothing := by
  intro s t addr n h
  obtain ⟨v, rfl⟩ := memRead_cases h
  exact ⟨⟨v, rfl⟩, rfl, rfl, rfl, rfl, rfl, ⟨rfl, rfl, rfl⟩, rfl, rfl, rfl, rfl⟩

/-- Settles O37: the address map puts such an address outside the window. -/
theorem outsideWindowFaults : Obligations.OutsideWindowFaults := by
  intro s addr n v haddr
  have hplace := locate_of_outside (c := s.cfg) haddr n
  exact ⟨by simp only [perform, memRead, hplace], by simp only [perform, memWrite, hplace]⟩

end Sys2Proof.Machine

/-! ## Encoding: commands and their words

`decode_eq_command_iff` says it once: a word decodes to a command exactly when it is that well-formed command's own word
(rules R60 to R63 and R70). The opcode table, the code length, the list of legal words and the illegal words are read off
from it and from the fields of a word. -/

namespace Sys2Proof.Machine

/-! ### Decoding and encoding -/

theorem decode_of_htrunc_fields {w : Word} (hrsv : rsvOf w = 0#20) (hopc : opcOf w = 0x21#8) :
    decode w = .command (.htrunc (argOf w).toNat) := by
  simp [decode, hrsv, hopc]

/-- A code length of rule R66 survives the 4-bit field of rule R63. -/
theorem decode_encode {i : Instr} (h : i.WellFormed) : decode (encode i) = .command i := by
  cases i with
  | htrunc l =>
    have hl : l % 2 ^ 4 = l := Nat.mod_eq_of_lt (Nat.lt_succ_of_le (Laws.htrunc_wellFormed.mp h))
    rw [encode, decode_of_htrunc_fields (rsvOf_packFields ..) (opcOf_packFields ..), argOf_packFields, BitVec.toNat_ofNat,
      hl]
  | b32encc | b32decc | b32enc | b32dec | ctrser => rfl

theorem encode_of_decode {w : Word} {i : Instr} (h : decode w = .command i) : encode i = w := by
  obtain ⟨hrsv, hrow⟩ := decode_command_cases h
  calc encode i = packFields (rsvOf w) (argOf w) (opcOf w) := by
        obtain ⟨hopc, harg, rfl⟩ | ⟨hopc, harg, rfl⟩ | ⟨hopc, harg, rfl⟩ | ⟨hopc, harg, rfl⟩ | ⟨hopc, harg, rfl⟩ |
          ⟨hopc, rfl⟩ := hrow
        · rw [hrsv, harg, hopc]; rfl
        · rw [hrsv, harg, hopc]; rfl
        · rw [hrsv, harg, hopc]; rfl
        · rw [hrsv, harg, hopc]; rfl
        · rw [hrsv, harg, hopc]; rfl
        · rw [hrsv, hopc, encode, BitVec.ofNat_toNat, BitVec.setWidth_eq]
    _ = w := packFields_fields w

theorem decode_eq_command_iff {w : Word} {i : Instr} : decode w = .command i ↔ i.WellFormed ∧ encode i = w := by
  refine ⟨fun h => ⟨wellFormed_of_decode h, encode_of_decode h⟩, ?_⟩
  rintro ⟨hi, rfl⟩
  exact decode_encode hi

/-! ### The opcode table -/

/-- The commands of format N (rule R61). -/
def formatN : List Instr := [.b32encc, .b32decc, .b32enc, .b32dec, .ctrser]

theorem wellFormed_of_formatN {i : Instr} (h : i ∈ formatN) : i.WellFormed := by
  revert i; decide

/-- The rows of format N: the mask takes in the whole word, and the match is the command's word (rule R62). -/
theorem row_of_formatN {i : Instr} (h : i ∈ formatN) : i.maskWord = BitVec.allOnes 32 ∧ encode i = i.matchWord := by
  revert i; decide

theorem decode_iff_of_formatN {i : Instr} (h : i ∈ formatN) (w : Word) :
    decode w = .command i ↔ w &&& i.maskWord = i.matchWord := by
  obtain ⟨hmask, hmatch⟩ := row_of_formatN h
  rw [decode_eq_command_iff, and_iff_right (wellFormed_of_formatN h), hmask, hmatch, BitVec.and_allOnes]
  exact eq_comm

/-! The mask of `HTRUNC` leaves out the code length only (rule R62). -/

theorem rsvOf_and_htruncMask (w : Word) : rsvOf (w &&& 0xFFFFF0FF#32) = rsvOf w :=
  (BitVec.extractLsb'_and ..).trans (BitVec.and_allOnes (x := rsvOf w))

theorem opcOf_and_htruncMask (w : Word) : opcOf (w &&& 0xFFFFF0FF#32) = opcOf w :=
  (BitVec.extractLsb'_and ..).trans (BitVec.and_allOnes (x := opcOf w))

theorem exists_decode_htrunc_iff (w : Word) :
    (∃ l, decode w = .command (.htrunc l)) ↔ w &&& 0xFFFFF0FF#32 = 0x00000021#32 := by
  constructor
  · rintro ⟨l, h⟩
    obtain ⟨hl, rfl⟩ := decode_eq_command_iff.mp h
    exact Laws.WordShape.htrunc l hl
  · intro h
    have hrsv : rsvOf w = 0#20 := by rw [← rsvOf_and_htruncMask, h]; rfl
    have hopc : opcOf w = 0x21#8 := by rw [← opcOf_and_htruncMask, h]; rfl
    exact ⟨_, decode_of_htrunc_fields hrsv hopc⟩

/-- The word of `HTRUNC L` is `0x00000021 + 0x100 * L` (rule R62). -/
theorem encode_htrunc {l : Nat} (hl : l ≤ 15) : encode (.htrunc l) = 0x00000021#32 + 0x100#32 * BitVec.ofNat 32 l := by
  apply BitVec.eq_of_toNat_eq
  rw [encode, packFields_toNat]
  simp only [BitVec.toNat_add, BitVec.toNat_mul, BitVec.toNat_ofNat]
  omega

/-- The three fields of a word that decodes to a command, as rule R64 speaks of them. -/
theorem fields_of_decode_command {w : Word} {i : Instr} (h : decode w = .command i) :
    w.toNat / 2 ^ 12 = 0 ∧
    (w.toNat % 2 ^ 8 ∈ [0x10, 0x11, 0x12, 0x13, 0x20] ∧ w.toNat / 2 ^ 8 % 16 = 0 ∨ w.toNat % 2 ^ 8 = 0x21) := by
  obtain ⟨-, rfl⟩ := decode_eq_command_iff.mp h
  cases i with
  | htrunc l =>
    rw [← rsvOf_toNat, ← opcOf_toNat, encode, rsvOf_packFields, opcOf_packFields]
    exact ⟨rfl, .inr rfl⟩
  | b32encc | b32decc | b32enc | b32dec | ctrser => decide

/-! ### The obligations -/

/-- Settles O1: the fields of a command's word are the ones that the encoder packed. -/
theorem decodeOfEncode : Obligations.DecodeOfEncode := fun _ => decode_encode

/-- Settles O2: a word is its three fields, and these are the command's. -/
theorem encodeOfDecode : Obligations.EncodeOfDecode := fun _ _ => decode_eq_command_iff.mp

/-- Settles O3: row by row, the masked word is the whole word or, for `HTRUNC`, its fields `RSV` and `OPC`. -/
theorem decodeMatchesTable : Obligations.DecodeMatchesTable := by
  intro w
  have row : ∀ i ∈ formatN, (decode w = .command i ↔ w &&& i.maskWord = i.matchWord) :=
    fun _ hi => decode_iff_of_formatN hi w
  exact ⟨row .b32encc (by decide), row .b32decc (by decide), row .b32enc (by decide), row .b32dec (by decide),
    row .ctrser (by decide), exists_decode_htrunc_iff w⟩

/-- Settles O4: the code length is the field `ARG` of the command's word. -/
theorem codeLengthIsBitsElevenToEight : Obligations.CodeLengthIsBitsElevenToEight := by
  intro w l h
  obtain ⟨hl, rfl⟩ := decode_eq_command_iff.mp h
  have hl15 := Laws.htrunc_wellFormed.mp hl
  rw [← argOf_toNat, encode, argOf_packFields, BitVec.toNat_ofNat, Nat.mod_eq_of_lt (by omega)]

/-- Settles O6: the legal words are the words of the well-formed commands. -/
theorem legalWordsAreTwentyOne : Obligations.LegalWordsAreTwentyOne := by
  intro w
  refine ⟨fun ⟨i, h⟩ => ?_, ?_⟩
  · obtain ⟨hi, rfl⟩ := decode_eq_command_iff.mp h
    cases i with
    | htrunc l =>
      have hl := Laws.htrunc_wellFormed.mp hi
      exact .inr ⟨l, hl, encode_htrunc hl⟩
    | b32encc | b32decc | b32enc | b32dec | ctrser => exact .inl (by decide)
  · rintro (hw | ⟨l, hl, rfl⟩)
    · have htable : w ∈ formatN.map encode := hw
      obtain ⟨i, hi, rfl⟩ := List.mem_map.mp htable
      exact ⟨i, decode_encode (wellFormed_of_formatN hi)⟩
    · rw [← encode_htrunc hl]
      exact ⟨_, decode_encode (Laws.htrunc_wellFormed.mpr hl)⟩

/-- Settles O10: no word of the three kinds has the fields of a command, so the frame raises `IllegalCommand`. -/
theorem illegalWordOnlyFails : Obligations.IllegalWordOnlyFails := by
  intro s w hkind
  rw [perform_writeCmd]
  cases hw : decode w with
  | illegal why => exact ⟨_, commandFrame_of_illegal hw s, failsWith_raised .illegalCommand s⟩
  | command i =>
    obtain ⟨hrsv, hopc⟩ := fields_of_decode_command hw
    simp only [List.mem_cons, List.not_mem_nil, or_false] at hkind hopc
    omega

/-- Settles O5: each word is the word of its command. -/
theorem decodeSampleWords : Obligations.DecodeSampleWords :=
  ⟨decode_encode (i := .b32encc) rfl, decode_encode (i := .b32decc) rfl, decode_encode (i := .b32enc) rfl,
    decode_encode (i := .b32dec) rfl, decode_encode (i := .ctrser) rfl, decode_encode (i := .htrunc 6) rfl,
    decode_encode (i := .htrunc 15) rfl⟩

end Sys2Proof.Machine

/-! ## Host scripts: `LOADB` and `COPYOUT`

Both statements store a run of bytes into `IBUF` (`Memory.putFrom`) and then write `ILEN` (rule R67). `runStmt_loadb` and
`runStmt_copyout` give the whole state that they end in; the obligations are read off from it. -/

namespace Sys2Proof.Machine

/-! ### Bytes stored one after the other -/

/-- `m` with the bytes `bs` from index `i` on. -/
def Memory.putFrom : Memory → Nat → List Byte → Memory
  | m, _, [] => m
  | m, i, b :: bs => Memory.putFrom (Memory.put m i b) (i + 1) bs

theorem Memory.get_putFrom_outside {i a : Nat} {bs : List Byte} (m : Memory) (h : a < i ∨ i + bs.length ≤ a) :
    Memory.get (Memory.putFrom m i bs) a = Memory.get m a := by
  induction bs generalizing m i with
  | nil => rfl
  | cons b bs ih =>
    rw [List.length_cons] at h
    rw [Memory.putFrom, ih _ (by omega), Memory.get_put_other m b (by omega)]

theorem Memory.get_putFrom_add {bs : List Byte} {j : Nat} (m : Memory) (i : Nat) (h : j < bs.length) :
    Memory.get (Memory.putFrom m i bs) (i + j) = bs[j]? := by
  induction bs generalizing m i j with
  | nil => cases h
  | cons b bs ih =>
    cases j with
    | zero => exact (Memory.get_putFrom_outside _ (.inl (Nat.lt_succ_self i))).trans (Memory.get_put_same m i b)
    | succ j =>
      have hstep : i + (j + 1) = i + 1 + j := by omega
      rw [Memory.putFrom, hstep, ih _ _ (Nat.lt_of_succ_lt_succ h), List.getElem?_cons_succ]

/-- The bytes stored from index 0 on, read back. -/
theorem Memory.get_putFrom_zero {bs : List Byte} {j : Nat} (m : Memory) (h : j < bs.length) :
    Memory.get (Memory.putFrom m 0 bs) j = bs[j]? := by
  simpa using Memory.get_putFrom_add m 0 h

/-! ### Accesses one after the other -/

@[simp] theorem andThen_next (s : State) (f : State → Host.Outcome State Fault Refusal) : andThen (.next s) f = f s := rfl

@[simp] theorem lastReceived_receive (v : Word) (s : State) : lastReceived (receive v s) = v := rfl

theorem performAll_append (hs hs' : List HostStep) (s : State) :
    performAll (hs ++ hs') s = andThen (performAll hs s) (performAll hs') := by
  induction hs generalizing s with
  | nil => rfl
  | cons h hs ih =>
    simp only [List.cons_append, performAll]
    cases perform h s with
    | next t => exact ih t
    | fault r => rfl
    | refused r => rfl

/-- `ILEN` keeps the low half of the word that the host writes (rule R15). -/
theorem perform_wrStep_ilen {v : Word} {n : BitVec 16} (h : v.setWidth 16 = n) (s : State) :
    perform (wrStep s.cfg .ilen v) s = .next { s with ilen := n } :=
  h ▸ perform_writeReg s .ilen v

theorem perform_wrbStep {s : State} (hc : s.cfg.Legal) {i : Nat} (h : i < s.cfg.nIn) (b : Byte) :
    perform (wrbStep s.cfg i b) s = .next (writeIbuf i b s) := by
  rw [wrbStep, perform_writeInput hc h, setWidth_byte_word]

theorem perform_rdbObufStep {s : State} (hc : s.cfg.Legal) {i : Nat} (h : i < s.cfg.nOut) :
    perform (rdbObufStep s.cfg i) s = .next (receive ((obufByte s i).setWidth 32) s) :=
  perform_readOutput hc h

/-! ### `LOADB` -/

/-- `s` with the bytes `bs` in `IBUF` from index `i` on. -/
def writeInputFrom (i : Nat) (bs : List Byte) (s : State) : State := { s with ibuf := Memory.putFrom s.ibuf i bs }

@[simp] theorem writeInputFrom_cfg_eq (i : Nat) (bs : List Byte) (s : State) : (writeInputFrom i bs s).cfg = s.cfg := rfl

/-- The writes of `LOADB` to `IBUF` store its bytes in turn. -/
theorem performAll_wrbSteps {bs : List Byte} {i : Nat} {s : State} (hc : s.cfg.Legal) (h : i + bs.length ≤ s.cfg.nIn) :
    performAll (wrbSteps s.cfg i bs) s = .next (writeInputFrom i bs s) := by
  induction bs generalizing i s with
  | nil => rfl
  | cons b bs ih =>
    rw [List.length_cons] at h
    rw [wrbSteps, performAll, perform_wrbStep hc (by omega), andThen_next]
    exact ih (s := writeIbuf i b s) hc (by rw [writeIbuf_cfg_eq]; omega)

/-- `s` with `bytes` as its input sequence (rule R15). -/
def withInput (bytes : List Byte) (s : State) : State :=
  { writeInputFrom 0 bytes s with ilen := BitVec.ofNat 16 bytes.length }

theorem runStmt_loadb {bytes : List Byte} {s : State} (hc : s.cfg.Legal) (h : bytes.length ≤ s.cfg.nIn) :
    runStmt (.loadb bytes) s = .next (withInput bytes s) := by
  have hilen : (BitVec.ofNat 32 bytes.length).setWidth 16 = BitVec.ofNat 16 bytes.length :=
    BitVec.setWidth_ofNat_of_le (by decide) _
  rw [runStmt, loadBytesSteps, performAll_append, performAll_wrbSteps hc (by omega), andThen_next, performAll,
    ← writeInputFrom_cfg_eq 0 bytes s, perform_wrStep_ilen hilen]
  rfl

theorem ibufByte_withInput {bytes : List Byte} {i : Nat} (s : State) (h : i < bytes.length) :
    ibufByte (withInput bytes s) i = bytes[i] :=
  ibufByte_of_get ((Memory.get_putFrom_zero s.ibuf h).trans (List.getElem?_eq_getElem h))

theorem inputBytes_withInput {bytes : List Byte} (s : State) (h : bytes.length < 2 ^ 16) :
    inputBytes (withInput bytes s) = bytes := by
  have hlen : (inputBytes (withInput bytes s)).length = bytes.length := by
    rw [inputBytes_length, withInput, BitVec.toNat_ofNat, Nat.mod_eq_of_lt h]
  refine List.ext_getElem hlen fun i hi hi' => ?_
  rw [inputBytes_getElem, ibufByte_withInput s hi']

/-! ### `COPYOUT` -/

/-- `s` after the host has read the `OBUF` bytes `bs` and stored each in `IBUF`, from index `i` on. -/
def copiedFrom (i : Nat) (bs : List Byte) (s : State) : State :=
  { writeInputFrom i bs s with
    received := (bs.map (·.setWidth 32)).reverse ++ s.received
    draws := s.draws + bs.length }

/-- `s` after one round of the loop of `COPYOUT`, which moves the byte `b` of index `i`. -/
def copiedByte (i : Nat) (b : Byte) (s : State) : State := writeIbuf i b (receive (b.setWidth 32) s)

@[simp] theorem copiedByte_cfg_eq (i : Nat) (b : Byte) (s : State) : (copiedByte i b s).cfg = s.cfg := rfl

theorem copiedFrom_cons (i : Nat) (b : Byte) (bs : List Byte) (s : State) :
    copiedFrom i (b :: bs) s = copiedFrom (i + 1) bs (copiedByte i b s) := by
  simp [copiedFrom, copiedByte, writeInputFrom, Memory.putFrom, writeIbuf, receive, Nat.add_assoc, Nat.add_comm 1]

/-- `OBUF` holds the bytes `bs` from index `i` on. -/
abbrev OutputFrom (i : Nat) (bs : List Byte) (s : State) : Prop :=
  ∀ j, j < bs.length → Memory.get s.obuf (i + j) = bs[j]?

theorem copyLoop_succ {k i : Nat} {b : Byte} {s : State} (hc : s.cfg.Legal) (hIn : i < s.cfg.nIn) (hOut : i < s.cfg.nOut)
    (hb : Memory.get s.obuf i = some b) : copyLoop (k + 1) i s = copyLoop k (i + 1) (copiedByte i b s) := by
  rw [copyLoop, perform_rdbObufStep hc hOut, obufByte_of_get hb, andThen_next, lastReceived_receive, setWidth_byte_word,
    perform_wrbStep (s := receive (b.setWidth 32) s) hc hIn, andThen_next, copiedByte]

theorem copyLoop_eq {bs : List Byte} {i : Nat} {s : State} (hc : s.cfg.Legal) (hIn : i + bs.length ≤ s.cfg.nIn)
    (hOut : i + bs.length ≤ s.cfg.nOut) (hbs : OutputFrom i bs s) :
    copyLoop bs.length i s = .next (copiedFrom i bs s) := by
  induction bs generalizing i s with
  | nil => rfl
  | cons b bs ih =>
    rw [List.length_cons] at hIn hOut
    have hrest : OutputFrom (i + 1) bs s := fun j hj => by
      simpa [Nat.add_assoc, Nat.add_comm 1] using hbs (j + 1) (Nat.succ_lt_succ hj)
    rw [List.length_cons, copyLoop_succ (i := i) hc (by omega) (by omega) (hbs 0 (Nat.succ_pos _)), copiedFrom_cons]
    exact ih (s := copiedByte i b s) hc (by rw [copiedByte_cfg_eq]; omega) (by rw [copiedByte_cfg_eq]; omega) hrest

/-- `s` after `COPYOUT` of the output `out`. -/
def copiedOut (out : List Byte) (s : State) : State :=
  { copiedFrom 0 out (receive (s.olen.setWidth 32) s) with ilen := s.olen }

theorem runStmt_copyout {out : List Byte} {s : State} (hc : s.cfg.Legal) (hlen : out.length = s.olen.toNat)
    (hIn : out.length ≤ s.cfg.nIn) (hOut : out.length ≤ s.cfg.nOut) (hout : OutputFrom 0 out s) :
    runStmt .copyout s = .next (copiedOut out s) := by
  have holen : (s.olen.setWidth 32).toNat = out.length := by
    rw [hlen, BitVec.toNat_setWidth_of_le (by decide)]
  have hilen : (s.olen.setWidth 32).setWidth 16 = s.olen := by
    rw [BitVec.setWidth_setWidth_of_le s.olen (by decide), BitVec.setWidth_eq]
  have hloop : copyLoop out.length 0 (receive (s.olen.setWidth 32) s)
      = .next (copiedFrom 0 out (receive (s.olen.setWidth 32) s)) :=
    copyLoop_eq hc (by rwa [Nat.zero_add]) (by rwa [Nat.zero_add]) hout
  rw [runStmt, copyOut, rdStep, perform_readReg, readReg, andThen_next, lastReceived_receive,
    holen, hloop, andThen_next, perform_wrStep_ilen hilen]
  rfl

/-- Under the invariant `OBUF` lists the output sequence (rule R17). -/
theorem get_obuf_of_inv {s : State} (hs : s.Inv) {j : Nat} (h : j < s.olen.toNat) :
    Memory.get s.obuf j = (outputBytes s)[j]? := by
  obtain ⟨b, hb⟩ := exists_get_obuf_of_inv hs h
  rw [hb, outputBytes, List.getElem?_map, List.getElem?_range h, Option.map_some, obufByte_of_get hb]

/-! ### The obligations -/

/-- Settles O46: the accesses end in `withInput`. -/
theorem loadBytesPlacesInput : Obligations.LoadBytesPlacesInput := by
  intro s bytes hc hlen
  have hshort : bytes.length < 2 ^ 16 := by
    obtain ⟨-, -, hIn, -, -⟩ := hc
    omega
  exact ⟨withInput bytes s, runStmt_loadb hc hlen, inputBytes_withInput s hshort,
    fun a ha => Memory.get_putFrom_outside s.ibuf (.inr (by omega)), rfl⟩

/-- Settles O47: the accesses end in `copiedOut` of the output sequence, which the invariant says `OBUF` lists. -/
theorem copyOutMovesOutputToInput : Obligations.CopyOutMovesOutputToInput := by
  intro s hs hIn
  have hlen : (outputBytes s).length = s.olen.toNat := by rw [outputBytes, List.length_map, List.length_range]
  have hout : OutputFrom 0 (outputBytes s) s := fun j hj => by rw [Nat.zero_add, get_obuf_of_inv hs (hlen ▸ hj)]
  have hrun : runStmt .copyout s = .next (copiedOut (outputBytes s) s) := by
    obtain ⟨hc, -, hOut, -⟩ := hs
    exact runStmt_copyout hc hlen (hlen ▸ hIn) (hlen ▸ hOut) hout
  refine ⟨_, hrun, rfl, fun i hi => ?_, fun i hi => ?_, rfl, rfl, rfl, ⟨rfl, rfl, rfl⟩, rfl, rfl, rfl⟩
  · rw [get_obuf_of_inv hs hi]
    exact Memory.get_putFrom_zero s.ibuf (by omega)
  · exact Memory.get_putFrom_outside s.ibuf (.inr (by omega))

end Sys2Proof.Machine

/-! ## Base32 codec: characters, packing, and the four codec commands

Packing is arithmetic on one 40-bit number (rules R86 to R88). The encoder goes chunk by chunk (`encode_induction`), the
decoder window by window (`WindowsDecode`), and a window is a chunk's symbols, so that decoding undoes encoding
(`decodeChars_encodeBytes`). What each command answers is then read off from its equation in `exec`. -/

namespace Sys2Proof.Machine

/-! ### Symbols and groups -/

/-- `val` undoes `sym` (rule R82). -/
@[simp] theorem val_sym (g : Group) : val (sym g) = g := by
  revert g; decide

/-- `sym` undoes `val` on the data symbols (rule R82). -/
theorem sym_val {c : Byte} (h : classOf c = .data) : sym (val c) = c := by
  revert c; decide

theorem sym_toNat (g : Group) : (sym g).toNat = if g.toNat ≤ 25 then 0x41 + g.toNat else 0x18 + g.toNat := by
  revert g; decide

theorem groupOf_of_data {c : Byte} (h : classOf c = .data) : groupOf c = val c := if_pos h

@[simp] theorem groupOf_padSymbol : groupOf padSymbol = 0#5 := rfl

@[simp] theorem groupOf_comp_sym : groupOf ∘ sym = id :=
  funext fun g => (groupOf_of_data (sym_class g)).trans (val_sym g)

/-- The symbols of the groups of data symbols are those symbols. -/
theorem map_sym_map_groupOf {w : List Byte} (h : ∀ c ∈ w, classOf c = .data) : (w.map groupOf).map sym = w := by
  have hid : ∀ c ∈ w, (sym ∘ groupOf) c = id c := fun c hc =>
    (congrArg sym (groupOf_of_data (h c hc))).trans (sym_val (h c hc))
  rw [List.map_map, List.map_congr_left hid, List.map_id]

/-! ### The 40-bit value of a chunk and of a window -/

theorem eq_of_length_five {α : Type} {l : List α} (h : l.length = 5) : ∃ a b c d e, l = [a, b, c, d, e] := by
  match l, h with
  | [a, b, c, d, e], _ => exact ⟨a, b, c, d, e, rfl⟩

theorem map_toNat_injective (k : Nat) : Function.Injective (List.map (BitVec.toNat (w := k))) :=
  List.map_injective_iff.mpr fun _ _ => BitVec.eq_of_toNat_eq

/-- The groups of `pack5` are the base-32 digits of the value (rule R86). -/
theorem map_toNat_pack5 (b : List Byte) : (pack5 b).map BitVec.toNat =
    (List.range 8).map fun k => (bytesValue b).toNat / 2 ^ (35 - 5 * k) % 2 ^ 5 := by
  simp [pack5, BitVec.extractLsb'_toNat, Nat.shiftRight_eq_div_pow]

/-- The bytes of `unpack8` are the base-256 digits of the value (rule R87). -/
theorem map_toNat_unpack8 (g : List Group) : (unpack8 g).map BitVec.toNat =
    (List.range 5).map fun j => (groupsValue g).toNat / 2 ^ (32 - 8 * j) % 2 ^ 8 := by
  simp [unpack8, BitVec.extractLsb'_toNat, Nat.shiftRight_eq_div_pow]

theorem pack5_toNat (b0 b1 b2 b3 b4 : Byte) : (pack5 [b0, b1, b2, b3, b4]).map BitVec.toNat =
    [ b0.toNat / 8, b0.toNat % 8 * 4 + b1.toNat / 64, b1.toNat / 2 % 32, b1.toNat % 2 * 16 + b2.toNat / 16,
      b2.toNat % 16 * 2 + b3.toNat / 128, b3.toNat / 4 % 32, b3.toNat % 4 * 8 + b4.toNat / 32, b4.toNat % 32 ] := by
  have := b0.isLt; have := b1.isLt; have := b2.isLt; have := b3.isLt; have := b4.isLt
  rw [map_toNat_pack5, bytesValue_toNat]
  simp only [List.range_succ, List.range_zero, List.nil_append, List.map_cons, List.map_nil,
    List.cons_append, List.cons.injEq, and_true]
  refine ⟨?_, ?_, ?_, ?_, ?_, ?_, ?_, ?_⟩ <;> omega

theorem unpack8_toNat (g0 g1 g2 g3 g4 g5 g6 g7 : Group) :
    (unpack8 [g0, g1, g2, g3, g4, g5, g6, g7]).map BitVec.toNat =
      [ g0.toNat * 8 + g1.toNat / 4, g1.toNat % 4 * 64 + g2.toNat * 2 + g3.toNat / 16,
        g3.toNat % 16 * 16 + g4.toNat / 2, g4.toNat % 2 * 128 + g5.toNat * 4 + g6.toNat / 8,
        g6.toNat % 8 * 32 + g7.toNat ] := by
  have := g0.isLt; have := g1.isLt; have := g2.isLt; have := g3.isLt
  have := g4.isLt; have := g5.isLt; have := g6.isLt; have := g7.isLt
  rw [map_toNat_unpack8, groupsValue_toNat]
  simp only [List.range_succ, List.range_zero, List.nil_append, List.map_cons, List.map_nil,
    List.cons_append, List.cons.injEq, and_true]
  refine ⟨?_, ?_, ?_, ?_, ?_⟩ <;> omega

/-- `unpack8` undoes `pack5` on five bytes (rule R88). -/
theorem unpack8_pack5 {b : List Byte} (h : b.length = 5) : unpack8 (pack5 b) = b := by
  obtain ⟨b0, b1, b2, b3, b4, rfl⟩ := eq_of_length_five h
  have hpack := pack5_toNat b0 b1 b2 b3 b4
  obtain ⟨g0, g1, g2, g3, g4, g5, g6, g7, hg⟩ := eq_of_length_eight (pack5_length [b0, b1, b2, b3, b4])
  rw [hg] at hpack ⊢
  have := b0.isLt; have := b1.isLt; have := b2.isLt; have := b3.isLt; have := b4.isLt
  simp only [List.map_cons, List.map_nil, List.cons.injEq, and_true] at hpack
  obtain ⟨h0, h1, h2, h3, h4, h5, h6, h7⟩ := hpack
  apply map_toNat_injective
  rw [unpack8_toNat]
  simp only [List.map_cons, List.map_nil, List.cons.injEq, and_true]
  refine ⟨?_, ?_, ?_, ?_, ?_⟩ <;> omega

/-- `pack5` undoes `unpack8` on eight groups (rule R88). -/
theorem pack5_unpack8 {g : List Group} (h : g.length = 8) : pack5 (unpack8 g) = g := by
  obtain ⟨g0, g1, g2, g3, g4, g5, g6, g7, rfl⟩ := eq_of_length_eight h
  have hunpack := unpack8_toNat g0 g1 g2 g3 g4 g5 g6 g7
  obtain ⟨b0, b1, b2, b3, b4, hb⟩ := eq_of_length_five (unpack8_length [g0, g1, g2, g3, g4, g5, g6, g7])
  rw [hb] at hunpack ⊢
  have := g0.isLt; have := g1.isLt; have := g2.isLt; have := g3.isLt
  have := g4.isLt; have := g5.isLt; have := g6.isLt; have := g7.isLt
  simp only [List.map_cons, List.map_nil, List.cons.injEq, and_true] at hunpack
  obtain ⟨h0, h1, h2, h3, h4⟩ := hunpack
  apply map_toNat_injective
  rw [pack5_toNat]
  simp only [List.map_cons, List.map_nil, List.cons.injEq, and_true]
  refine ⟨?_, ?_, ?_, ?_, ?_, ?_, ?_, ?_⟩ <;> omega

/-- The first `m` bytes of a window depend on the first `8 * m` bits of its value only (rule R112). -/
theorem take_unpack8_congr {g g' : List Group} {m : Nat} (hm : m ≤ 5)
    (h : (groupsValue g).toNat / 2 ^ (40 - 8 * m) = (groupsValue g').toNat / 2 ^ (40 - 8 * m)) :
    (unpack8 g).take m = (unpack8 g').take m := by
  refine List.ext_getElem (by simp) fun j hj _ => BitVec.eq_of_toNat_eq ?_
  have hjm : j < m := by simp at hj; omega
  have hpow : 2 ^ (32 - 8 * j) = 2 ^ (40 - 8 * m) * 2 ^ (8 * (m - 1 - j)) := by rw [← pow_add]; congr 1; omega
  rw [List.getElem_take, List.getElem_take, unpack8_getElem_toNat, unpack8_getElem_toNat, hpow,
    ← Nat.div_div_eq_div_mul, ← Nat.div_div_eq_div_mul, h]

/-! ### The packing expressions of rules R86 and R87 on machine bytes -/

theorem toNat_shiftLeft_or {k : Nat} {x y : Byte} (hx : x.toNat * 2 ^ k < 2 ^ 8) (hy : y.toNat < 2 ^ k) :
    ((x <<< k) ||| y).toNat = x.toNat * 2 ^ k + y.toNat := by
  have hshift : (x <<< k).toNat = x.toNat * 2 ^ k := by
    rw [BitVec.toNat_shiftLeft, Nat.shiftLeft_eq, Nat.mod_eq_of_lt hx]
  rw [BitVec.toNat_or, hshift, mul_pow_or _ _ hy]

theorem toNat_shiftLeft_or_or {k k' : Nat} {x y z : Byte} (hx : x.toNat * 2 ^ k < 2 ^ 8)
    (hy : y.toNat * 2 ^ k' < 2 ^ 8) (hyz : y.toNat * 2 ^ k' + z.toNat < 2 ^ k) (hz : z.toNat < 2 ^ k') :
    ((x <<< k) ||| (y <<< k') ||| z).toNat = x.toNat * 2 ^ k + (y.toNat * 2 ^ k' + z.toNat) := by
  have hinner := toNat_shiftLeft_or hy hz
  rw [BitVec.or_assoc, toNat_shiftLeft_or hx (hinner ▸ hyz), hinner]

theorem toNat_shiftRight (x : Byte) (k : Nat) : (x >>> k).toNat = x.toNat / 2 ^ k := by
  rw [BitVec.toNat_ushiftRight, Nat.shiftRight_eq_div_pow]

theorem toNat_and_mask {m : Byte} (k : Nat) (hm : m.toNat = 2 ^ k - 1) (x : Byte) :
    (x &&& m).toNat = x.toNat % 2 ^ k := by
  rw [BitVec.toNat_and, hm, Nat.and_two_pow_sub_one_eq_mod]

theorem toNat_and_01 (x : Byte) : (x &&& 0x01#8).toNat = x.toNat % 2 := toNat_and_mask 1 rfl x
theorem toNat_and_03 (x : Byte) : (x &&& 0x03#8).toNat = x.toNat % 4 := toNat_and_mask 2 rfl x
theorem toNat_and_07 (x : Byte) : (x &&& 0x07#8).toNat = x.toNat % 8 := toNat_and_mask 3 rfl x
theorem toNat_and_0F (x : Byte) : (x &&& 0x0F#8).toNat = x.toNat % 16 := toNat_and_mask 4 rfl x
theorem toNat_and_1F (x : Byte) : (x &&& 0x1F#8).toNat = x.toNat % 32 := toNat_and_mask 5 rfl x

/-- `pack5` as rule R86 writes it out. -/
theorem pack5_eq (b0 b1 b2 b3 b4 : Byte) : pack5 [b0, b1, b2, b3, b4] =
    [ (b0 >>> 3).setWidth 5, (((b0 &&& 0x07#8) <<< 2) ||| (b1 >>> 6)).setWidth 5,
      ((b1 >>> 1) &&& 0x1F#8).setWidth 5, (((b1 &&& 0x01#8) <<< 4) ||| (b2 >>> 4)).setWidth 5,
      (((b2 &&& 0x0F#8) <<< 1) ||| (b3 >>> 7)).setWidth 5, ((b3 >>> 2) &&& 0x1F#8).setWidth 5,
      (((b3 &&& 0x03#8) <<< 3) ||| (b4 >>> 5)).setWidth 5, (b4 &&& 0x1F#8).setWidth 5 ] := by
  have := b0.isLt; have := b1.isLt; have := b2.isLt; have := b3.isLt; have := b4.isLt
  apply map_toNat_injective
  rw [pack5_toNat]
  simp (disch := simp only [toNat_and_01, toNat_and_03, toNat_and_07, toNat_and_0F, toNat_shiftRight]; omega) only
    [toNat_shiftLeft_or, toNat_and_01, toNat_and_03, toNat_and_07, toNat_and_0F, toNat_and_1F, toNat_shiftRight,
      BitVec.toNat_setWidth, List.map_cons, List.map_nil, List.cons.injEq, and_true]
  refine ⟨?_, ?_, ?_, ?_, ?_, ?_, ?_, ?_⟩ <;> omega

/-- `unpack8` as rule R87 writes it out, on groups that stand in bytes. -/
theorem unpack8_eq {v : Nat → Group} {g : Nat → Byte} (hg : ∀ k, g k = (v k).setWidth 8) :
    unpack8 ((List.range 8).map v) =
      [ (g 0 <<< 3) ||| (g 1 >>> 2), ((g 1 &&& 0x03#8) <<< 6) ||| (g 2 <<< 1) ||| (g 3 >>> 4),
        ((g 3 &&& 0x0F#8) <<< 4) ||| (g 4 >>> 1), ((g 4 &&& 0x01#8) <<< 7) ||| (g 5 <<< 2) ||| (g 6 >>> 3),
        ((g 6 &&& 0x07#8) <<< 5) ||| g 7 ] := by
  have hv : ∀ k, (g k).toNat = (v k).toNat := fun k => by
    rw [hg, BitVec.toNat_setWidth_of_le (by decide)]
  have := (v 0).isLt; have := (v 1).isLt; have := (v 2).isLt; have := (v 3).isLt
  have := (v 4).isLt; have := (v 5).isLt; have := (v 6).isLt; have := (v 7).isLt
  apply map_toNat_injective
  refine (unpack8_toNat (v 0) (v 1) (v 2) (v 3) (v 4) (v 5) (v 6) (v 7)).trans ?_
  simp (disch := simp only [hv, toNat_and_01, toNat_and_03, toNat_and_07, toNat_and_0F, toNat_shiftRight]; omega) only
    [toNat_shiftLeft_or_or, toNat_shiftLeft_or, toNat_and_01, toNat_and_03, toNat_and_07, toNat_and_0F,
      toNat_shiftRight, hv, List.map_cons, List.map_nil, List.cons.injEq, and_true]
  refine ⟨?_, ?_, ?_, ?_, ?_⟩ <;> omega

/-! ### The encoder, chunk by chunk -/

/-- A final partial chunk holds 1 to 4 bytes (rule R100). -/
abbrev PartialChunk (c : List Byte) : Prop := 0 < c.length ∧ c.length < 5

theorem encodeBytes_of_partial {c : List Byte} (h : PartialChunk c) : encodeBytes c = partialSymbols c := by
  match c, h with
  | [_], _ | [_, _], _ | [_, _, _], _ | [_, _, _, _], _ => rfl

theorem encodeBytes_append_chunk {c : List Byte} (h : c.length = 5) (rest : List Byte) :
    encodeBytes (c ++ rest) = chunkSymbols c ++ encodeBytes rest := by
  obtain ⟨b0, b1, b2, b3, b4, rfl⟩ := eq_of_length_five h
  exact encodeBytes_chunk b0 b1 b2 b3 b4 rest

/-- The shape of the encoder's recursion: nothing, a partial chunk, or a full chunk and the rest. -/
theorem encode_induction {P : List Byte → Prop} (nil : P []) (short : ∀ c, PartialChunk c → P c)
    (full : ∀ c rest, c.length = 5 → P rest → P (c ++ rest)) (b : List Byte) : P b := by
  induction b using chunk_induction with
  | nil => exact nil
  | one | two | three | four => exact short _ ⟨by simp, by simp⟩
  | full a b c d e rest ih => exact full [a, b, c, d, e] rest rfl ih

/-- A partial chunk with its missing bytes zero (rule R100). -/
def zeroFilled (c : List Byte) : List Byte := c ++ List.replicate (5 - c.length) 0#8

theorem zeroFilled_length {c : List Byte} (h : c.length ≤ 5) : (zeroFilled c).length = 5 := by
  simp [zeroFilled]; omega

theorem partialSymbols_eq (c : List Byte) : partialSymbols c =
    (chunkSymbols (zeroFilled c)).take (nsym c.length) ++ List.replicate (8 - nsym c.length) padSymbol := rfl

/-- The symbols that a partial chunk drops spell zero groups (rule R89). -/
theorem pack5_zeroFilled {c : List Byte} (h : PartialChunk c) : pack5 (zeroFilled c) =
    (pack5 (zeroFilled c)).take (nsym c.length) ++ List.replicate (8 - nsym c.length) 0#5 := by
  obtain ⟨b0, b1, b2, b3, b4, hb⟩ := eq_of_length_five (zeroFilled_length h.2.le)
  apply map_toNat_injective
  rw [List.map_append, List.map_take, List.map_replicate, hb, pack5_toNat]
  match c, h with
  | [_], _ | [_, _], _ | [_, _, _], _ | [_, _, _, _], _ => cases hb; rfl

theorem map_groupOf_chunkSymbols (b : List Byte) : (chunkSymbols b).map groupOf = pack5 b := by
  rw [chunkSymbols, List.map_map, groupOf_comp_sym, List.map_id]

theorem map_groupOf_partialSymbols {c : List Byte} (h : PartialChunk c) :
    (partialSymbols c).map groupOf = pack5 (zeroFilled c) := by
  rw [partialSymbols_eq, List.map_append, List.map_take, map_groupOf_chunkSymbols, List.map_replicate,
    groupOf_padSymbol, ← pack5_zeroFilled h]

theorem chunkSymbols_data (b : List Byte) : ∀ c ∈ chunkSymbols b, classOf c = .data := by
  intro c hc
  obtain ⟨g, -, rfl⟩ := List.mem_map.mp hc
  exact sym_class g

/-- A partial chunk of `n` bytes is spelled by a final window of `NSYM(n)` symbols, and `NBYTES` gives `n` back
(rule R89). -/
theorem finalWindow_partialSymbols {c : List Byte} (h : PartialChunk c) :
    FinalWindow (nsym c.length) (partialSymbols c) ∧ 5 * nsym c.length / 8 = c.length := by
  obtain ⟨hcase, hbytes⟩ : (nsym c.length = 2 ∨ nsym c.length = 4 ∨ nsym c.length = 5 ∨ nsym c.length = 7) ∧
      5 * nsym c.length / 8 = c.length := by
    obtain ⟨h0, h5⟩ := h
    generalize c.length = n at *
    interval_cases n <;> decide
  refine ⟨⟨hcase, _, ?_, fun x hx => chunkSymbols_data _ x (List.mem_of_mem_take hx), partialSymbols_eq c⟩, hbytes⟩
  rw [List.length_take, chunkSymbols_length, Nat.min_eq_left (nsym_le _)]

/-! ### The decoder, window by window -/

/-- The character sequence `str` is one that rule R106 accepts, and `out` its bytes: full windows, with or without a
final window. -/
inductive WindowsDecode : List Byte → List Byte → Prop
  | full {ws : List (List Byte)} (hws : FullWindows ws) : WindowsDecode ws.flatten (windowsBytes ws)
  | final {ws : List (List Byte)} {f : List Byte} {t : Nat} (hws : FullWindows ws) (hf : FinalWindow t f) :
    WindowsDecode (ws.flatten ++ f) (windowsBytes ws ++ (unpack8 (f.map groupOf)).take (5 * t / 8))

theorem decodeChars_eq (chars : List Byte) :
    decodeChars chars = scanEnd (scanRun ⟨[], [], false⟩ (stripped chars)) := by
  rw [decodeChars, scanChars_eq_scanEnd, scanRun_stripped]

/-- What rule R106 accepts decodes to its bytes. -/
theorem decodeChars_of_windows {chars out : List Byte} (h : WindowsDecode (stripped chars) out) :
    decodeChars chars = .ok out := by
  rw [decodeChars_eq]
  generalize stripped chars = str at h
  cases h with
  | @full ws hws =>
    have hrun := (scanRun_clean ws hws [] []).1 (by decide) (List.forall_mem_nil _)
    rw [List.append_nil] at hrun
    rw [hrun]; rfl
  | @final ws f t hws hf =>
    rw [(scanRun_clean ws hws [] f).2 t hf]; rfl

/-- Without a bad character, what rule R106 does not accept is `InvalidPadding` (rule R104). -/
theorem decodeChars_cases {chars : List Byte} (h : ∀ c ∈ chars, classOf c ≠ .bad) :
    (∃ out, WindowsDecode (stripped chars) out) ∨ decodeChars chars = .error .invalidPadding := by
  rw [decodeChars_eq]
  have ha := accepted_of_mem_stripped h
  rcases scanRun_error_or_clean _ [] ha with he | ⟨ws, f, hws, hstr, ⟨hlt, hacc⟩ | ⟨t, hf⟩⟩
  · exact .inr (by rw [he]; rfl)
  · cases f with
    | nil => exact .inl ⟨_, by rw [hstr, List.append_nil]; exact .full hws⟩
    | cons x f => exact .inr (by rw [hstr, (scanRun_clean ws hws [] _).1 hlt hacc]; rfl)
  · exact .inl ⟨_, by rw [hstr]; exact .final hws hf⟩

theorem scanRun_of_cleanSoFar {str : List Byte} (h : CleanSoFar str) : ∃ sc, scanRun ⟨[], [], false⟩ str = .ok sc := by
  obtain ⟨ws, f, hws, rfl, ⟨hlt, hacc⟩ | ⟨t, hf⟩⟩ := h
  · exact ⟨_, (scanRun_clean ws hws [] f).1 hlt hacc⟩
  · exact ⟨_, (scanRun_clean ws hws [] f).2 t hf⟩

theorem stripped_append_cons {c : Byte} (hc : classOf c = .bad) (pre post : List Byte) :
    stripped (pre ++ c :: post) = stripped pre ++ c :: stripped post := by
  simp [stripped, hc]

/-- A bad character that the scan reaches is the error (rules R104 and R145). -/
theorem decodeChars_of_reached {pre post : List Byte} {c : Byte} (hc : classOf c = .bad)
    (hclean : CleanSoFar (stripped pre)) : decodeChars (pre ++ c :: post) = .error .invalidCharacter := by
  obtain ⟨sc, hsc⟩ := scanRun_of_cleanSoFar hclean
  rw [decodeChars_eq, stripped_append_cons hc, scanRun_append, hsc]
  simp only [scanRun, scanChar, hc, scanEnd]

/-- A padding fault before the first bad character is the error (rule R145). -/
theorem decodeChars_of_not_reached {pre post : List Byte} {c : Byte} (hpre : ∀ x ∈ pre, classOf x ≠ .bad)
    (hc : classOf c = .bad) (hclean : ¬ CleanSoFar (stripped pre)) :
    decodeChars (pre ++ c :: post) = .error .invalidPadding := by
  have he := (scanRun_error_or_clean _ [] (accepted_of_mem_stripped hpre)).resolve_right hclean
  rw [decodeChars_eq, stripped_append_cons hc, scanRun_append, he]
  rfl

theorem not_bad_of_scanChars_ok {sc : Scan} {chars out : List Byte} (h : scanChars sc chars = .ok out) :
    ∀ c ∈ chars, classOf c ≠ .bad := by
  induction chars generalizing sc with
  | nil => exact List.forall_mem_nil _
  | cons x xs ih =>
    refine List.forall_mem_cons.mpr ⟨fun hx => ?_, ?_⟩
    · rw [scanChars_bad hx] at h
      cases h
    · rw [scanChars] at h
      split at h
      · exact ih h
      · cases h

/-- `B32DEC` decodes exactly what rule R106 accepts, to its bytes. -/
theorem decodeChars_eq_ok_iff {chars out : List Byte} :
    decodeChars chars = .ok out ↔ WindowsDecode (stripped chars) out := by
  refine ⟨fun h => ?_, decodeChars_of_windows⟩
  rcases decodeChars_cases (not_bad_of_scanChars_ok h) with ⟨out', h'⟩ | he
  · cases (decodeChars_of_windows h').symm.trans h
    exact h'
  · cases he.symm.trans h

/-! ### Decoding undoes encoding -/

theorem WindowsDecode.cons {w str out : List Byte} (hw : w.length = 8 ∧ ∀ c ∈ w, classOf c = .data)
    (h : WindowsDecode str out) : WindowsDecode (w ++ str) (unpack8 (w.map groupOf) ++ out) := by
  cases h with
  | @full ws hws =>
    rw [← windowsBytes_cons, ← List.flatten_cons]
    exact .full (List.forall_mem_cons.mpr ⟨hw, hws⟩)
  | @final ws f t hws hf =>
    rw [← List.append_assoc, ← List.append_assoc, ← windowsBytes_cons, ← List.flatten_cons]
    exact .final (List.forall_mem_cons.mpr ⟨hw, hws⟩) hf

/-- An encoding is made of windows that decode to the bytes encoded (rule R108). -/
theorem windowsDecode_encodeBytes (b : List Byte) : WindowsDecode (encodeBytes b) b := by
  induction b using encode_induction with
  | nil => exact .full (List.forall_mem_nil _)
  | short c hc =>
    obtain ⟨hf, hlen⟩ := finalWindow_partialSymbols hc
    have h := WindowsDecode.final (List.forall_mem_nil _) hf
    rw [map_groupOf_partialSymbols hc, unpack8_pack5 (zeroFilled_length hc.2.le), hlen, zeroFilled, List.take_left] at h
    rwa [encodeBytes_of_partial hc]
  | full c rest hc ih =>
    have h := ih.cons ⟨chunkSymbols_length c, chunkSymbols_data c⟩
    rw [map_groupOf_chunkSymbols, unpack8_pack5 hc] at h
    rwa [encodeBytes_append_chunk hc]

theorem fullWindows_data {ws : List (List Byte)} (hws : FullWindows ws) : ∀ c ∈ ws.flatten, classOf c = .data := by
  intro c hc
  obtain ⟨w, hw, hcw⟩ := List.mem_flatten.mp hc
  exact (hws w hw).2 c hcw

/-- Only data symbols and `=` stand in the windows. -/
theorem WindowsDecode.accepted {str out : List Byte} (h : WindowsDecode str out) : ∀ c ∈ str, Accepted c := by
  cases h with
  | full hws => exact fun c hc => .inl (fullWindows_data hws c hc)
  | final hws hf =>
    obtain ⟨-, -, -, hacc, -, -⟩ := closes_of_finalWindow hf
    exact List.forall_mem_append.mpr ⟨fun c hc => .inl (fullWindows_data hws c hc), hacc⟩

theorem stripped_of_accepted {str : List Byte} (h : ∀ c ∈ str, Accepted c) : stripped str = str := by
  refine List.filter_eq_self.mpr fun c hc => decide_eq_true ?_
  rcases h c hc with hd | hp
  · rw [hd]; decide
  · rw [hp]; decide

/-- Decoding undoes encoding (rule R108). -/
theorem decodeChars_encodeBytes (b : List Byte) : decodeChars (encodeBytes b) = .ok b := by
  have h := windowsDecode_encodeBytes b
  rwa [decodeChars_eq_ok_iff, stripped_of_accepted h.accepted]

theorem encodeBytes_injective : Function.Injective encodeBytes := fun a b h => by
  have := (decodeChars_encodeBytes a).symm.trans (h ▸ decodeChars_encodeBytes b)
  cases this; rfl

theorem encodeBytes_append {a : List Byte} (b : List Byte) (h : a.length % 5 = 0) :
    encodeBytes (a ++ b) = encodeBytes a ++ encodeBytes b := by
  induction a using encode_induction with
  | nil => rfl
  | short c hc => obtain ⟨h0, h5⟩ := hc; omega
  | full c rest hc ih =>
    rw [List.length_append] at h
    rw [List.append_assoc, encodeBytes_append_chunk hc, encodeBytes_append_chunk hc, ih (by omega), List.append_assoc]

/-! ### The encoder, character by character -/

theorem chunkNumber_eq {n i : Nat} {f : Nat → Byte} {z : List Byte} (hlen : z.length = 5)
    (hz : ∀ m, m < 5 → chunkByte n f i m = (z.getD m 0#8).toNat) : chunkNumber n f i = (bytesValue z).toNat := by
  obtain ⟨b0, b1, b2, b3, b4, rfl⟩ := eq_of_length_five hlen
  rw [chunkNumber, hz 0 (by decide), hz 1 (by decide), hz 2 (by decide), hz 3 (by decide), hz 4 (by decide),
    bytesValue_toNat]
  simp only [List.getD_cons_zero, List.getD_cons_succ]
  ring

/-- The characters of the first chunk, whose bytes are `z`, zero-filled: its groups in turn, then `=`. -/
theorem symbolAt_first_chunk {n k : Nat} {f : Nat → Byte} {z : List Byte} (hlen : z.length = 5)
    (hz : ∀ m, m < 5 → chunkByte n f 0 m = (z.getD m 0#8).toNat) (hk : k < 8) :
    symbolAt n f k = if 5 * k < 8 * n then (chunkSymbols z)[k]'(by simpa) else padSymbol := by
  have hmod : k % 8 = k := Nat.mod_eq_of_lt hk
  have hdiv : k / 8 = 0 := Nat.div_eq_of_lt hk
  have hgroup : BitVec.ofNat 5 ((bytesValue z).toNat / 2 ^ (35 - 5 * k) % 32) = (pack5 z)[k]'(by simpa) :=
    BitVec.eq_of_toNat_eq (by rw [pack5_getElem_toNat, BitVec.toNat_ofNat]; exact Nat.mod_mod _ _)
  simp only [symbolAt, hmod, hdiv, Nat.mul_zero, Nat.sub_zero, chunkNumber_eq hlen hz, hgroup, chunkSymbols,
    List.getElem_map]

/-- The characters after the first chunk are those of the bytes after it. -/
theorem symbolAt_add (n j : Nat) (f : Nat → Byte) : symbolAt (5 + n) f (8 + j) = symbolAt n (fun i => f (5 + i)) j := by
  have hmod : (8 + j) % 8 = j % 8 := Nat.add_mod_left 8 j
  have hdiv : (8 + j) / 8 = 1 + j / 8 := by omega
  have hrest : 5 + n - 5 * (1 + j / 8) = n - 5 * (j / 8) := by omega
  have hbyte : ∀ m, chunkByte (5 + n) f (1 + j / 8) m = chunkByte n (fun i => f (5 + i)) (j / 8) m := fun m => by
    simp only [chunkByte, Nat.mul_add, Nat.mul_one, Nat.add_assoc, Nat.add_lt_add_iff_left]
  simp only [symbolAt, hmod, hdiv, hrest, chunkNumber, hbyte]

/-- A partial chunk of `n` bytes keeps the symbols that hold a data bit (rule R89). -/
theorem lt_nsym_iff {n k : Nat} (h0 : 0 < n) (h5 : n < 5) (hk : k < 8) : k < nsym n ↔ 5 * k < 8 * n := by
  interval_cases n <;> simp only [nsym] <;> omega

theorem chunkByte_first {b : List Byte} {f : Nat → Byte} (hf : ∀ i (h : i < b.length), f i = b[i]) (m : Nat) :
    chunkByte b.length f 0 m = (b.getD m 0#8).toNat := by
  simp only [chunkByte, Nat.mul_zero, Nat.zero_add]
  split
  next h => rw [hf m h, List.getD_eq_getElem b _ h]
  next h => rw [List.getD_eq_default b _ (Nat.le_of_not_lt h)]; rfl

theorem zeroFilled_getD (c : List Byte) (m : Nat) : (zeroFilled c).getD m 0#8 = c.getD m 0#8 := by
  rcases Nat.lt_or_ge m c.length with h | h
  · exact List.getD_append _ _ _ _ h
  · rw [zeroFilled, List.getD_append_right _ _ _ _ h, List.getD_eq_default _ _ h, List.getD_eq_getElem?_getD,
      List.getElem?_getD_replicate_default_eq]

/-- Character `j` of the encoding, in the words of rule R100. -/
theorem encodeBytes_eq_symbols {b : List Byte} {f : Nat → Byte} (hf : ∀ i (h : i < b.length), f i = b[i]) :
    encodeBytes b = (List.range (8 * ((b.length + 4) / 5))).map (symbolAt b.length f) := by
  induction b using encode_induction generalizing f with
  | nil => rfl
  | short c hc =>
    obtain ⟨h0, h5⟩ := hc
    have hz : ∀ m, m < 5 → chunkByte c.length f 0 m = ((zeroFilled c).getD m 0#8).toNat := fun m _ => by
      rw [chunkByte_first hf, zeroFilled_getD]
    have hone : (c.length + 4) / 5 = 1 := by omega
    rw [encodeBytes_of_partial ⟨h0, h5⟩, hone]
    refine List.ext_getElem (by simp) fun k hk _ => ?_
    rw [partialSymbols_length] at hk
    rw [List.getElem_map, List.getElem_range, symbolAt_first_chunk (zeroFilled_length h5.le) hz hk]
    simp only [partialSymbols_eq, ← lt_nsym_iff h0 h5 hk]
    split
    next h => rw [List.getElem_append_left (by simp; omega), List.getElem_take]
    next h => rw [List.getElem_append_right (by simp; omega), List.getElem_replicate]
  | full c rest hc ih =>
    have hz : ∀ m, m < 5 → chunkByte (5 + rest.length) f 0 m = (c.getD m 0#8).toNat := fun m hm => by
      rw [← hc, ← List.length_append, chunkByte_first hf, List.getD_append _ _ _ _ (hc ▸ hm)]
    have hrest : ∀ i (h : i < rest.length), f (5 + i) = rest[i] := fun i h => by
      rw [hf (5 + i) (by simp; omega), List.getElem_append_right (by omega)]
      simp [hc]
    have hlen : 8 * ((5 + rest.length + 4) / 5) = 8 + 8 * ((rest.length + 4) / 5) := by omega
    rw [encodeBytes_append_chunk hc, List.length_append, hc, hlen, List.range_add, List.map_append, List.map_map]
    congr 1
    · refine List.ext_getElem (by simp) fun k hk _ => ?_
      rw [chunkSymbols_length] at hk
      rw [List.getElem_map, List.getElem_range, symbolAt_first_chunk hc hz hk, if_pos (by omega)]
    · rw [ih hrest]
      exact List.map_congr_left fun j _ => (symbolAt_add rest.length j f).symm

/-! ### The chunk decoder -/

theorem chunkGroups_of_accepted {cs : List Byte} (h : ∀ c ∈ cs, Accepted c) :
    chunkGroups cs = .ok (cs.map groupOf) := by
  induction cs with
  | nil => rfl
  | cons c cs ih =>
    obtain ⟨hc, hcs⟩ := List.forall_mem_cons.mp h
    rcases hc with hd | hp
    · simp only [chunkGroups, hd, ih hcs, groupOf_of_data hd, List.map_cons, Except.map]
    · rw [eq_padSymbol_of_class hp]
      simp only [chunkGroups, padSymbol_class, ih hcs, groupOf_padSymbol, List.map_cons, Except.map]

theorem chunkGroups_of_not_accepted {cs : List Byte} {c : Byte} (hc : c ∈ cs) (h : ¬ Accepted c) :
    chunkGroups cs = .error .invalidCharacter := by
  induction cs with
  | nil => cases hc
  | cons x xs ih =>
    rcases List.mem_cons.mp hc with rfl | hmem
    · cases hclass : classOf c with
      | data => exact absurd (.inl hclass) h
      | pad => exact absurd (.inr hclass) h
      | ws | bad => simp only [chunkGroups, hclass]
    · cases hclass : classOf x with
      | data | pad => simp only [chunkGroups, hclass, ih hmem, Except.map]
      | ws | bad => simp only [chunkGroups, hclass]

/-! ### The lengths of a decoded sequence -/

theorem countP_pad_of_data {l : List Byte} (h : ∀ c ∈ l, classOf c = .data) :
    l.countP (fun c => decide (classOf c = .pad)) = 0 :=
  List.countP_eq_zero.mpr fun c hc => by rw [h c hc]; decide

/-- The characters, pads and bytes of an accepted sequence (rule R110). -/
theorem WindowsDecode.lengths {str out : List Byte} (h : WindowsDecode str out) :
    str.length % 8 = 0 ∧
    ∃ p d, (p, d) ∈ [(0, 0), (1, 1), (3, 2), (4, 3), (6, 4)] ∧
      str.countP (fun c => decide (classOf c = .pad)) = p ∧ out.length + d = 5 * (str.length / 8) := by
  cases h with
  | @full ws hws =>
    obtain ⟨hstr, hout⟩ := fullWindows_length hws
    exact ⟨by omega, 0, 0, by decide, countP_pad_of_data (fullWindows_data hws), by omega⟩
  | @final ws f t hws hf =>
    obtain ⟨hstr, hout⟩ := fullWindows_length hws
    obtain ⟨-, hlen, -⟩ := closes_of_finalWindow hf
    obtain ⟨ht, d, hd, hdata, rfl⟩ := hf
    have hpads : (List.replicate (8 - t) padSymbol).countP (fun c => decide (classOf c = .pad)) = 8 - t := by
      rw [List.countP_replicate, if_pos (by decide)]
    rw [List.length_append, hstr, hlen, List.countP_append, List.countP_append,
      countP_pad_of_data (fullWindows_data hws), countP_pad_of_data hdata, hpads, List.length_append, hout,
      List.length_take, unpack8_length]
    refine ⟨by omega, 8 - t, 5 - 5 * t / 8, ?_, by omega, by omega⟩
    rcases ht with rfl | rfl | rfl | rfl <;> decide

theorem WindowsDecode.shape {str out : List Byte} (h : WindowsDecode str out) :
    ∃ ws f, FullWindows ws ∧ (f = [] ∨ ∃ k, FinalWindow k f) ∧ str = ws.flatten ++ f := by
  cases h with
  | full hws => exact ⟨_, [], hws, .inl rfl, (List.append_nil _).symm⟩
  | final hws hf => exact ⟨_, _, hws, .inr ⟨_, hf⟩, rfl⟩

/-! ### The discarded bits of a final window -/

theorem groupsValue_concat {l : List Group} (g : Group) (h : (groupsValue l).toNat < 2 ^ 35) :
    (groupsValue (l ++ [g])).toNat = (groupsValue l).toNat * 2 ^ 5 + g.toNat := by
  have hg := g.isLt
  rw [← toNat_shift_or _ g (by omega)]
  simp only [groupsValue, List.foldl_append, List.foldl_cons, List.foldl_nil]

theorem groupsValue_lt {l : List Group} (h : l.length ≤ 8) : (groupsValue l).toNat < 2 ^ (5 * l.length) := by
  induction l using List.reverseRecOn with
  | nil => decide
  | append_singleton l g ih =>
    rw [List.length_append, List.length_singleton] at h ⊢
    have hl := ih (by omega)
    have hpow : 2 ^ (5 * l.length) ≤ 2 ^ 35 := Nat.pow_le_pow_right (by decide) (by omega)
    have hg := g.isLt
    rw [groupsValue_concat g (by omega), Nat.mul_add, Nat.pow_add]
    omega

theorem groupsValue_append_zeros {l : List Group} {n : Nat} (h : l.length + n ≤ 8) :
    (groupsValue (l ++ List.replicate n 0#5)).toNat = (groupsValue l).toNat * 2 ^ (5 * n) := by
  induction n with
  | zero => simp
  | succ n ih =>
    have hlt := groupsValue_lt (l := l ++ List.replicate n 0#5) (by simp; omega)
    have hpow : 2 ^ (5 * (l ++ List.replicate n 0#5).length) ≤ 2 ^ 35 :=
      Nat.pow_le_pow_right (by decide) (by simp; omega)
    rw [List.replicate_succ', ← List.append_assoc, groupsValue_concat _ (by omega), ih (by omega), Nat.mul_add 5,
      Nat.pow_add, Nat.mul_assoc]
    rfl

/-- The bytes that a final window yields do not depend on the low bits of its last symbol (rule R112). -/
theorem take_unpack8_of_same_high_bits {p : List Group} {g g' : Group} {low m n : Nat} (hlen : p.length + 1 + n = 8)
    (hm : 8 * m + low = 5 * (p.length + 1)) (hlow : low ≤ 5) (h : g.toNat / 2 ^ low = g'.toNat / 2 ^ low) :
    (unpack8 (p ++ g :: List.replicate n 0#5)).take m = (unpack8 (p ++ g' :: List.replicate n 0#5)).take m := by
  have hp := groupsValue_lt (l := p) (by omega)
  have hpow : 2 ^ (5 * p.length) ≤ 2 ^ 35 := Nat.pow_le_pow_right (by decide) (by omega)
  have hexp : 40 - 8 * m = 5 * n + low := by omega
  have hsplit : 2 ^ 5 = 2 ^ low * 2 ^ (5 - low) := by rw [← Nat.pow_add]; congr 1; omega
  have hvalue : ∀ x : Group, (groupsValue (p ++ x :: List.replicate n 0#5)).toNat / 2 ^ (40 - 8 * m) =
      (groupsValue p).toNat * 2 ^ (5 - low) + x.toNat / 2 ^ low := fun x => by
    rw [List.append_cons, groupsValue_append_zeros (by simp; omega), groupsValue_concat x (by omega), hexp, Nat.pow_add,
      ← Nat.div_div_eq_div_mul, Nat.mul_div_cancel _ (Nat.two_pow_pos _), hsplit, Nat.mul_left_comm,
      Nat.mul_add_div (Nat.two_pow_pos _)]
  refine take_unpack8_congr (by omega) ?_
  rw [hvalue, hvalue, h]

/-- The bytes of a final window do not depend on the low bits of its last symbol (rule R112). -/
theorem finalWindow_drops_low_bits {d : List Byte} {x x' : Byte} {k low : Nat} (hk : k ≤ 8) (hd : d.length + 1 = k)
    (hbits : 8 * (5 * k / 8) + low = 5 * k) (hlow : low ≤ 5) (hx : classOf x = .data) (hx' : classOf x' = .data)
    (h : (val x).toNat / 2 ^ low = (val x').toNat / 2 ^ low) :
    (unpack8 ((d ++ x :: List.replicate (8 - k) padSymbol).map groupOf)).take (5 * k / 8) =
      (unpack8 ((d ++ x' :: List.replicate (8 - k) padSymbol).map groupOf)).take (5 * k / 8) := by
  simp only [List.map_append, List.map_cons, List.map_replicate, groupOf_padSymbol, groupOf_of_data hx,
    groupOf_of_data hx']
  exact take_unpack8_of_same_high_bits (by rw [List.length_map]; omega) (by rw [List.length_map, hd, hbits]) hlow h

/-! ### What the commands answer -/

theorem exec_b32encc {s : State} (h : LengthIs 5 s) :
    exec .b32encc s = .next (succeeded (chunkSymbols (inputBytes s)) s) := if_pos h

theorem exec_b32encc_of_length {s : State} (h : ¬ LengthIs 5 s) : exec .b32encc s = .next (raised .operandLength s) :=
  if_neg h

theorem exec_b32decc {s : State} (h : LengthIs 8 s) :
    exec .b32decc s = finish ((chunkGroups (inputBytes s)).map unpack8) s := if_pos h

theorem exec_b32decc_of_length {s : State} (h : ¬ LengthIs 8 s) : exec .b32decc s = .next (raised .operandLength s) :=
  if_neg h

theorem exec_b32decc_of_accepted {s : State} (h : LengthIs 8 s) (ha : ∀ c ∈ inputBytes s, Accepted c) :
    exec .b32decc s = .next (succeeded (unpack8 ((inputBytes s).map groupOf)) s) := by
  rw [exec_b32decc h, chunkGroups_of_accepted ha]; rfl

theorem exec_b32enc {s : State} (h : LengthFits s) :
    exec .b32enc s = .next (succeeded (encodeBytes (inputBytes s)) s) := if_pos h

theorem exec_b32enc_of_length {s : State} (h : ¬ LengthFits s) : exec .b32enc s = .next (raised .operandLength s) :=
  if_neg h

theorem exec_b32dec {s : State} (h : LengthFits s) : exec .b32dec s = finish (decodeChars (inputBytes s)) s := if_pos h

theorem exec_b32dec_of_length {s : State} (h : ¬ LengthFits s) : exec .b32dec s = .next (raised .operandLength s) :=
  if_neg h

theorem exec_b32dec_of_windows {s : State} {out : List Byte} (hfit : LengthFits s)
    (h : WindowsDecode (stripped (inputBytes s)) out) : exec .b32dec s = .next (succeeded out s) := by
  rw [exec_b32dec hfit, decodeChars_of_windows h, finish_ok]

theorem exec_b32dec_of_error {s : State} {e : CommandError} (hfit : LengthFits s)
    (h : decodeChars (inputBytes s) = .error e) : exec .b32dec s = .next (raised e s) := by
  rw [exec_b32dec hfit, h, finish_error]

theorem statusError_ne_success (e : CommandError) : statusError e ≠ 0x00000001#32 := by
  cases e <;> decide

/-- A `B32DEC` that ends with `STATUS` 1 has read windows of rule R106. -/
theorem windows_of_exec_b32dec {s t : State} (h : exec .b32dec s = .next t) (hst : t.status = 0x00000001#32) :
    ∃ out, WindowsDecode (stripped (inputBytes s)) out ∧ t = succeeded out s := by
  by_cases hfit : LengthFits s
  · rw [exec_b32dec hfit] at h
    obtain ⟨out, hr, rfl⟩ | ⟨e, -, rfl⟩ := finish_cases h
    · exact ⟨out, decodeChars_eq_ok_iff.mp hr, rfl⟩
    · exact absurd hst (statusError_ne_success e)
  · rw [exec_b32dec_of_length hfit] at h
    cases h
    exact absurd hst (statusError_ne_success _)

theorem windowsDecode_length_lt {s : State} {out : List Byte} (h : WindowsDecode (stripped (inputBytes s)) out) :
    out.length < 2 ^ 16 := by
  have hle := decodeChars_length_le (decodeChars_of_windows h)
  have hlt := s.ilen.isLt
  rw [inputBytes_length] at hle
  omega

theorem endsWith_succeeded {out : List Byte} (h : out.length < 2 ^ 16) (s : State) : EndsWith out s (succeeded out s) :=
  ⟨rfl, succeeded_olen_toNat h s, Memory.get_ofBytes out, operandsKept_succeeded out s⟩

theorem exists_endsWith {o : Host.Outcome State Fault Refusal} {out : List Byte} {s : State}
    (h : o = .next (succeeded out s)) (hlen : out.length < 2 ^ 16) :
    ∃ t, o = .next t ∧ TruncationKept s t ∧ EndsWith out s t :=
  ⟨_, h, truncationKept_succeeded out s, endsWith_succeeded hlen s⟩

theorem exists_failsWith {o : Host.Outcome State Fault Refusal} {e : CommandError} {s : State}
    (h : o = .next (raised e s)) : ∃ t, o = .next t ∧ FailsWith (statusError e) s t :=
  ⟨_, h, failsWith_raised e s⟩

/-! ### The output of one command as the input of the next -/

theorem inputBytes_eq_map {s : State} {n : Nat} (h : s.ilen.toNat = n) :
    inputBytes s = (List.range n).map (ibufByte s) := h ▸ rfl

theorem inputBytes_eq_of_output {s s' : State} {out : List Byte} (hlen : s'.ilen.toNat = out.length)
    (h : ∀ j, j < out.length → ibufByte s' j = obufByte (succeeded out s) j) : inputBytes s' = out := by
  refine List.ext_getElem (by rw [inputBytes_length, hlen]) fun j _ hj => ?_
  rw [inputBytes_getElem, h j hj, obufByte_succeeded hj]

theorem outputBytes_succeeded {out : List Byte} (h : out.length < 2 ^ 16) (s : State) :
    outputBytes (succeeded out s) = out := by
  have hlen : (outputBytes (succeeded out s)).length = out.length := by
    rw [outputBytes, List.length_map, List.length_range, succeeded_olen_toNat h]
  refine List.ext_getElem hlen fun j _ hj => ?_
  simp only [outputBytes]
  rw [List.getElem_map, List.getElem_range, obufByte_succeeded hj]

theorem runStmt_command {i : Instr} (h : i.WellFormed) (s : State) : runStmt (.command i) s = exec i s :=
  (perform_writeReg s .cmd (encode i)).trans (commandFrame_of_command (decode_encode h) s)

/-- `COPYOUT` after a success makes the output the next input (rule R67). -/
theorem runStmt_copyout_succeeded {out : List Byte} {s : State} (hc : s.cfg.Legal) (hIn : out.length ≤ s.cfg.nIn)
    (hOut : out.length ≤ s.cfg.nOut) :
    ∃ t, runStmt .copyout (succeeded out s) = .next t ∧ t.cfg = s.cfg ∧ inputBytes t = out := by
  have hshort : out.length < 2 ^ 16 := by
    obtain ⟨-, -, hmax, -, -⟩ := hc
    omega
  have holen := succeeded_olen_toNat hshort s
  have hout : OutputFrom 0 out (succeeded out s) := fun j _ => by
    rw [Nat.zero_add, succeeded_obuf_eq, Memory.get_ofBytes]
  refine ⟨_, runStmt_copyout (s := succeeded out s) hc holen.symm hIn hOut hout, rfl, ?_⟩
  refine List.ext_getElem ((inputBytes_length _).trans holen) fun j _ hj => ?_
  rw [inputBytes_getElem]
  exact ibufByte_of_get ((Memory.get_putFrom_zero s.ibuf hj).trans (List.getElem?_eq_getElem hj))

/-- `B32ENC`, `COPYOUT`, `B32DEC` puts out the input of `B32ENC` (rule R108). -/
theorem runScript_enc_copyout_dec {s : State} (hc : s.cfg.Legal) (hfit : LengthFits s)
    (henc : (encodeBytes (inputBytes s)).length ≤ s.cfg.nIn) :
    ∃ t, runScript [.command .b32enc, .copyout, .command .b32dec] s = .next (succeeded (inputBytes s) t) := by
  have hOut : (encodeBytes (inputBytes s)).length ≤ s.cfg.nOut := by
    obtain ⟨-, -, -, hOut, -⟩ := hc
    rw [encodeBytes_length, inputBytes_length]
    omega
  obtain ⟨t, hcopy, hcfg, hin⟩ := runStmt_copyout_succeeded hc henc hOut
  have hfit' : LengthFits t := by
    rw [LengthFits, ← inputBytes_length, hin, hcfg]
    exact henc
  refine ⟨t, ?_⟩
  rw [runScript, runStmt_command rfl, exec_b32enc hfit, andThen_next, runScript, hcopy, andThen_next, runScript,
    runStmt_command rfl, exec_b32dec hfit', hin, decodeChars_encodeBytes]
  rfl

/-! ### The obligations -/

/-- Settles O11: the output is `chunkSymbols` of the five input bytes, whose groups `pack5_eq` writes out. -/
theorem encodeChunkResult : Obligations.EncodeChunkResult := by
  intro s
  refine ⟨fun h => ?_, fun h => exists_failsWith (exec_b32encc_of_length h)⟩
  have hin : inputBytes s = [ibufByte s 0, ibufByte s 1, ibufByte s 2, ibufByte s 3, ibufByte s 4] :=
    inputBytes_eq_map h.2
  have hexec := exec_b32encc h
  rw [hin, chunkSymbols, pack5_eq] at hexec
  exact exists_endsWith hexec (by simp)

/-- Settles O12: `chunkGroups` accepts exactly data symbols and `=`, and `unpack8_eq` writes out the bytes. -/
theorem decodeChunkResult : Obligations.DecodeChunkResult := by
  intro s g hg
  have hg' : ∀ k, g k = (groupOf (ibufByte s k)).setWidth 8 := fun k => by
    rw [hg, groupOf]; split <;> rfl
  refine ⟨fun h => ?_, fun h => exists_failsWith (exec_b32decc_of_length h)⟩
  have hin := inputBytes_eq_map h.2
  refine ⟨fun hacc => ?_, fun ⟨k, hk, hdata, hpad⟩ => ?_⟩
  · have ha : ∀ c ∈ inputBytes s, Accepted c := by
      rw [hin, List.forall_mem_map]
      exact fun k hk => hacc k (List.mem_range.mp hk)
    have hexec := exec_b32decc_of_accepted h ha
    rw [hin, List.map_map, unpack8_eq (v := groupOf ∘ ibufByte s) hg'] at hexec
    exact exists_endsWith hexec (by simp)
  · have hmem : ibufByte s k ∈ inputBytes s := hin ▸ List.mem_map_of_mem (List.mem_range.mpr hk)
    refine exists_failsWith (e := .invalidCharacter) ?_
    rw [exec_b32decc h, chunkGroups_of_not_accepted hmem (not_or.mpr ⟨hdata, hpad⟩)]
    rfl

/-- Settles O13: character `j` of the encoder's output is `symbolAt`, by induction over the chunks. -/
theorem encodeSequenceResult : Obligations.EncodeSequenceResult := by
  intro s hc
  obtain ⟨-, -, hIn, -, -⟩ := hc
  refine ⟨fun h => ?_, fun h => exists_failsWith (exec_b32enc_of_length (Nat.not_le.mpr h))⟩
  have hchars := encodeBytes_eq_symbols fun i hi => (inputBytes_getElem s i hi).symm
  have hexec := exec_b32enc h
  rw [hchars, inputBytes_length] at hexec
  exact exists_endsWith hexec (by simp; omega)

/-- Settles O14: the windows that decode, and the error of any other input. -/
theorem decodeSequenceResult : Obligations.DecodeSequenceResult := by
  intro s hfit
  have hok : ∀ {out}, WindowsDecode (stripped (inputBytes s)) out →
      ∃ t, exec .b32dec s = .next t ∧ TruncationKept s t ∧ EndsWith out s t := fun h =>
    exists_endsWith (exec_b32dec_of_windows hfit h) (windowsDecode_length_lt h)
  refine ⟨fun ws hws hstr => hok (hstr ▸ .full hws), fun ws f k hws hf hstr => hok (hstr ▸ .final hws hf),
    fun hbad hshape => ?_, fun pre c post hin hpre hc => ⟨fun hclean => ?_, fun hclean => ?_⟩⟩
  · rcases decodeChars_cases hbad with ⟨out, h⟩ | he
    · exact absurd h.shape hshape
    · exact exists_failsWith (exec_b32dec_of_error hfit he)
  · exact exists_failsWith (exec_b32dec_of_error hfit (hin ▸ decodeChars_of_reached hc hclean))
  · exact exists_failsWith (exec_b32dec_of_error hfit (hin ▸ decodeChars_of_not_reached hpre hc hclean))

/-- Settles O16: the lengths of the windows that a success has read. -/
theorem decodeOutputLength : Obligations.DecodeOutputLength := by
  intro s t h hst
  obtain ⟨out, hw, rfl⟩ := windows_of_exec_b32dec h hst
  obtain ⟨hmod, p, d, hpd, hpads, hlen⟩ := hw.lengths
  have hle := stripped_length_le (inputBytes s)
  rw [inputBytes_length] at hle
  rw [succeeded_olen_toNat (windowsDecode_length_lt hw)]
  exact ⟨hmod, ⟨p, d, hpd, hpads, hlen⟩, by omega⟩

/-- Settles O17: the two final windows yield the same bytes. -/
theorem decodeDropsDiscardedBits : Obligations.DecodeDropsDiscardedBits := by
  intro s s' ws d x x' k low hk hws hd hdata hx hx' hval hfit hfit' hin hin'
  obtain ⟨hcase, hbits, hlow⟩ : (k = 2 ∨ k = 4 ∨ k = 5 ∨ k = 7) ∧ 8 * (5 * k / 8) + low = 5 * k ∧ low ≤ 5 := by
    simp only [List.mem_cons, Prod.mk.injEq, List.not_mem_nil, or_false] at hk
    omega
  have hfinal : ∀ y, classOf y = .data → FinalWindow k (d ++ y :: List.replicate (8 - k) padSymbol) := fun y hy =>
    ⟨hcase, d ++ [y], by simpa using hd, List.forall_mem_append.mpr ⟨hdata, by simpa using hy⟩, List.append_cons d y _⟩
  have hw := hin ▸ WindowsDecode.final hws (hfinal x hx)
  have hw' := hin' ▸ WindowsDecode.final hws (hfinal x' hx')
  rw [← finalWindow_drops_low_bits (by omega) hd hbits hlow hx hx' hval] at hw'
  have hlen := windowsDecode_length_lt hw
  refine ⟨_, _, _, exec_b32dec_of_windows hfit hw, exec_b32dec_of_windows hfit' hw', ?_, endsWith_succeeded hlen s,
    endsWith_succeeded hlen s'⟩
  rw [List.length_append, (fullWindows_length hws).2, List.length_take, unpack8_length, Nat.min_eq_left (by omega)]

/-- Settles O18: `B32DEC` gives back the encoded bytes. -/
theorem encodeOfDecodedOutput : Obligations.EncodeOfDecodedOutput := by
  intro s t s' b hin hfit h hfit' hin'
  have hw : WindowsDecode (stripped (inputBytes s)) b := decodeChars_eq_ok_iff.mp (hin ▸ decodeChars_encodeBytes b)
  cases (exec_b32dec_of_windows hfit hw).symm.trans h
  rw [outputBytes_succeeded (windowsDecode_length_lt hw)] at hin'
  have hexec := exec_b32enc hfit'
  rw [hin', ← hin] at hexec
  exact ⟨_, hexec, endsWith_succeeded (by rw [inputBytes_length]; exact s.ilen.isLt) s'⟩

/-- Settles O19: by `unpack8_pack5` and `pack5_unpack8`, and `groupOf` against `sym`. -/
theorem chunkCommandsAreInverse : Obligations.ChunkCommandsAreInverse := by
  refine ⟨fun s t s' hs h hs' hout => ?_, fun s t s' hs hdata h hs' hout => ?_⟩
  · cases (exec_b32encc hs).symm.trans h
    have hin : inputBytes s' = chunkSymbols (inputBytes s) :=
      inputBytes_eq_of_output (by rw [hs'.2, chunkSymbols_length]) (by simpa using hout)
    have hexec := exec_b32decc_of_accepted hs' (by rw [hin]; exact fun c hc => .inl (chunkSymbols_data _ c hc))
    rw [hin, map_groupOf_chunkSymbols, unpack8_pack5 (by rw [inputBytes_length, hs.2])] at hexec
    exact ⟨_, hexec, endsWith_succeeded (by rw [inputBytes_length]; exact s.ilen.isLt) s'⟩
  · have hd : ∀ c ∈ inputBytes s, classOf c = .data := by
      rw [inputBytes_eq_map hs.2, List.forall_mem_map]
      exact fun j hj => hdata j (List.mem_range.mp hj)
    cases (exec_b32decc_of_accepted hs fun c hc => .inl (hd c hc)).symm.trans h
    have hin : inputBytes s' = unpack8 ((inputBytes s).map groupOf) :=
      inputBytes_eq_of_output (by rw [hs'.2, unpack8_length]) (by simpa using hout)
    have hexec := exec_b32encc hs'
    rw [hin, chunkSymbols, pack5_unpack8 (by rw [List.length_map, inputBytes_length, hs.2]),
      map_sym_map_groupOf hd] at hexec
    exact ⟨_, hexec, endsWith_succeeded (by rw [inputBytes_length]; exact s.ilen.isLt) s'⟩

/-- Settles O20: decoding undoes encoding, and the encoder goes chunk by chunk. -/
theorem encodingSplitsAtChunks : Obligations.EncodingSplitsAtChunks :=
  ⟨fun _ _ h => encodeBytes_injective h, fun _ b h => encodeBytes_append b h⟩

/-- Settles O43: the groups are the base-32 digits of the 40-bit value. -/
theorem packWrittenOut : Obligations.PackWrittenOut := pack5_toNat

/-- Settles O44: the bytes are the base-256 digits of the 40-bit value. -/
theorem unpackWrittenOut : Obligations.UnpackWrittenOut := unpack8_toNat

/-- Settles O45: each direction from the two written-out forms. -/
theorem packAndUnpackAreInverse : Obligations.PackAndUnpackAreInverse :=
  ⟨fun _ => unpack8_pack5, fun _ => pack5_unpack8⟩

/-- Settles O48: the four statements in turn, with `decodeChars_encodeBytes` at the end. -/
theorem decodeOfEncodedInput : Obligations.DecodeOfEncodedInput := by
  intro s bytes hc hlen hfits
  have hshort : bytes.length < 2 ^ 16 := by
    obtain ⟨-, -, hIn, -, -⟩ := hc
    omega
  have hin := inputBytes_withInput s hshort
  have hfit : LengthFits (withInput bytes s) := by
    rw [LengthFits, ← inputBytes_length, hin]; exact hlen
  have henc : (encodeBytes (inputBytes (withInput bytes s))).length ≤ s.cfg.nIn := by
    rw [hin, encodeBytes_length]; exact hfits
  obtain ⟨u, hrun⟩ := runScript_enc_copyout_dec (s := withInput bytes s) hc hfit henc
  rw [hin] at hrun
  refine ⟨succeeded bytes u, ?_, rfl, succeeded_olen_toNat hshort u, Memory.get_ofBytes bytes⟩
  rw [runScript, runStmt_loadb hc hlen, andThen_next, hrun]

/-- Settles O41: each of the 32 groups and the 256 codes. -/
theorem valueOfSymbol : Obligations.ValueOfSymbol :=
  ⟨fun g => ⟨sym_class g, val_sym g⟩, fun _ => sym_val, sym_toNat⟩

/-- Settles O42: each of the 256 codes. -/
theorem characterClasses : Obligations.CharacterClasses := by
  unfold Obligations.CharacterClasses
  decide

end Sys2Proof.Machine

/-! ## Truncation unit: the serialised counter and the HOTP code

`CTRSER` puts out the base-256 digits of the counter (`counterBytes_eq`), `HTRUNC` the decimal digits of the truncated
value (`codeDigits_eq`). `exec_htrunc_truncatesTo` says once how an `HTRUNC` on 20 bytes ends; the obligations, the host
scripts' among them, are read off from it. -/

namespace Sys2Proof.Machine

/-! ### The counter -/

theorem exec_ctrser (s : State) : exec .ctrser s = .next (succeeded (counterBytes (counterValue s)) s) := rfl

theorem counterValue_toNat (s : State) : (counterValue s).toNat = s.ctrHi.toNat * 2 ^ 32 + s.ctrLo.toNat := by
  rw [counterValue, BitVec.toNat_append, ← Nat.shiftLeft_add_eq_or_of_lt s.ctrLo.isLt, Nat.shiftLeft_eq]

/-- The serialised bytes are the base-256 digits of the counter, most significant first (rule R120). -/
theorem counterBytes_eq (c : BitVec 64) :
    counterBytes c = (List.range 8).map fun i => BitVec.ofNat 8 (c.toNat / 256 ^ (7 - i) % 256) := by
  refine List.map_congr_left fun i _ => BitVec.eq_of_toNat_eq ?_
  have hpow : 2 ^ (8 * (7 - i)) = 256 ^ (7 - i) := Nat.pow_mul 2 8 (7 - i)
  rw [BitVec.toNat_setWidth, BitVec.toNat_ushiftRight, Nat.shiftRight_eq_div_pow, hpow, BitVec.toNat_ofNat, Nat.mod_mod]

/-- `s` with `v` as its counter (rule R19). -/
def withCounter (v : BitVec 64) (s : State) : State :=
  writeReg .ctrHi (v.extractLsb' 32 32) (writeReg .ctrLo (v.extractLsb' 0 32) s)

@[simp] theorem counterValue_withCounter (v : BitVec 64) (s : State) : counterValue (withCounter v s) = v := by
  have hlo : (withCounter v s).ctrLo = v.extractLsb' 0 32 := rfl
  have hhi : (withCounter v s).ctrHi = v.extractLsb' 32 32 := rfl
  apply BitVec.eq_of_toNat_eq
  rw [counterValue_toNat, hlo, hhi, BitVec.extractLsb'_toNat, BitVec.extractLsb'_toNat, Nat.shiftRight_eq_div_pow,
    Nat.shiftRight_zero]
  omega

theorem runStmt_loadctr (v : BitVec 64) (s : State) : runStmt (.loadctr v) s = .next (withCounter v s) := by
  have hlo : perform (wrStep s.cfg .ctrLo (v.extractLsb' 0 32)) s = .next (writeReg .ctrLo (v.extractLsb' 0 32) s) :=
    perform_writeReg s .ctrLo _
  rw [runStmt, loadCounterSteps, performAll, hlo, andThen_next, performAll]
  exact congrArg (andThen · _) (perform_writeReg (writeReg .ctrLo (v.extractLsb' 0 32) s) .ctrHi _)

/-! ### Decimal digits -/

/-- The last `l` decimal digits of `p` as characters, most significant first: the closed form of rule R124. -/
def decimalDigits (l p : Nat) : List Byte :=
  (List.range l).map fun j => BitVec.ofNat 8 (0x30 + p / 10 ^ (l - 1 - j) % 10)

@[simp] theorem decimalDigits_length (l p : Nat) : (decimalDigits l p).length = l := by
  rw [decimalDigits, List.length_map, List.length_range]

theorem decimalDigits_getElem? {l j : Nat} (p : Nat) (h : j < l) :
    (decimalDigits l p)[j]? = some (BitVec.ofNat 8 (0x30 + p / 10 ^ (l - 1 - j) % 10)) := by
  rw [decimalDigits, List.getElem?_map, List.getElem?_range h, Option.map_some]

theorem digitChar_eq (n : Nat) : digitChar n = BitVec.ofNat 8 (0x30 + n) := (BitVec.ofNat_add 0x30 n).symm

/-- The padding of rule R124 is the digits of `p` above its numeral. -/
theorem codeDigits_eq {l p : Nat} (hp : p < 2 ^ 31) : codeDigits l p = decimalDigits l p := by
  refine List.ext_getElem? fun j => ?_
  by_cases hj : j < l
  · rw [codeDigits_getElem? hp hj, digitChar_eq, decimalDigits_getElem? p hj]
  · rw [List.getElem?_eq_none (by simpa using hj), List.getElem?_eq_none (by simpa using hj)]

/-- The last `l` decimal digits of `p` add up, by their weights, to its remainder (rule R125). -/
theorem sum_decimal_digits (l p : Nat) :
    ((List.range l).map fun j => p / 10 ^ (l - 1 - j) % 10 * 10 ^ (l - 1 - j)).sum = p % 10 ^ l := by
  induction l with
  | zero => simp [Nat.mod_one]
  | succ l ih =>
    have hrest : ∀ j, l + 1 - 1 - (j + 1) = l - 1 - j := fun j => by omega
    rw [List.range_succ_eq_map, List.map_cons, List.map_map, List.sum_cons]
    simp only [Function.comp_def, Nat.succ_eq_add_one, hrest, ih]
    rw [Nat.mod_pow_succ, Nat.add_sub_cancel, Nat.sub_zero, Nat.mul_comm, Nat.add_comm]

/-! ### The truncated value of a digest -/

theorem truncationOffset_eq (d : List Byte) : truncationOffset d = (d.getD 19 0#8).toNat % 16 :=
  (BitVec.toNat_and ..).trans (Nat.and_two_pow_sub_one_eq_mod _ 4)

/-- `P` has 31 bits: rule R124 masks the top bit. -/
theorem truncatedValue_lt (d : List Byte) (o : Nat) : (truncatedValue d o).toNat < 2 ^ 31 := by
  have h₁ := (d.getD (o + 1) 0#8).isLt
  have h₂ := (d.getD (o + 2) 0#8).isLt
  have h₃ := (d.getD (o + 3) 0#8).isLt
  rw [truncatedValue_toNat]
  omega

theorem inputBytes_getD {s : State} {i : Nat} (h : i < s.ilen.toNat) : (inputBytes s).getD i 0#8 = ibufByte s i := by
  have hi : i < (inputBytes s).length := by rwa [inputBytes_length]
  rw [← inputBytes_getElem s i hi, List.getD_eq_getElem _ _ hi]

/-! ### What `HTRUNC` answers -/

theorem exec_htrunc {l : Nat} {s : State} (h : LengthIs 20 s) :
    exec (.htrunc l) s = .next (succeeded
      (codeDigits l (truncatedValue (inputBytes s) (truncationOffset (inputBytes s))).toNat)
      (writeTruncation l (truncationOffset (inputBytes s))
        (truncatedValue (inputBytes s) (truncationOffset (inputBytes s))) s)) := if_pos h

theorem exec_htrunc_of_length {l : Nat} {s : State} (h : ¬ LengthIs 20 s) :
    exec (.htrunc l) s = .next (raised .operandLength s) := if_neg h

/-- `t` is `s` after an `HTRUNC l` that has read the value `p` at the offset `o` (rule R124). -/
structure TruncatesTo (l o p : Nat) (s t : State) : Prop where
  offset : t.offset.toNat = o
  trunc : t.trunc.toNat = p
  code : t.code.toNat = p % 10 ^ l
  ends : EndsWith (decimalDigits l p) s t

/-- Each register holds its whole value, since the offset has 4 bits and the value 31. -/
theorem truncatesTo_succeeded {l o : Nat} {p : Word} (hl : l ≤ 15) (ho : o < 16) (hp : p.toNat < 2 ^ 31) (s : State) :
    TruncatesTo l o p.toNat s (succeeded (codeDigits l p.toNat) (writeTruncation l o p s)) where
  offset := Nat.mod_eq_of_lt ho
  trunc := (BitVec.toNat_setWidth ..).trans (Nat.mod_eq_of_lt hp)
  code := Nat.mod_eq_of_lt ((Nat.mod_le _ _).trans_lt hp)
  ends := by
    rw [codeDigits_eq hp]
    have hlen : (decimalDigits l p.toNat).length < 2 ^ 16 := by rw [decimalDigits_length]; omega
    exact ⟨rfl, succeeded_olen_toNat hlen _, Memory.get_ofBytes _, operandsKept_succeeded_writeTruncation _ l o p s⟩

theorem exec_htrunc_truncatesTo {l o : Nat} {s : State} (hl : l ≤ 15) (h : LengthIs 20 s)
    (ho : o = ((inputBytes s).getD 19 0#8).toNat % 16) :
    ∃ t, exec (.htrunc l) s = .next t ∧ TruncatesTo l o (truncatedValue (inputBytes s) o).toNat s t := by
  rw [exec_htrunc h, truncationOffset_eq, ← ho]
  exact ⟨_, rfl, truncatesTo_succeeded hl (by omega) (truncatedValue_lt _ o) s⟩

/-- The bytes that `HTRUNC` has put out are readable as digits. -/
theorem TruncatesTo.obufByte_toNat {l o p j : Nat} {s t : State} (h : TruncatesTo l o p s t) (hj : j < l) :
    (obufByte t j).toNat = 0x30 + p / 10 ^ (l - 1 - j) % 10 := by
  obtain ⟨-, -, hobuf, -⟩ := h.ends
  rw [obufByte_of_get ((hobuf j).trans (decimalDigits_getElem? p hj)), BitVec.toNat_ofNat]
  omega

/-! ### The obligations -/

/-- Settles O21: the output is `counterBytes` of the counter, whose base-256 digits `counterBytes_eq` writes out. -/
theorem counterSerialised : Obligations.CounterSerialised := by
  intro s
  have hexec := exec_ctrser s
  rw [counterBytes_eq, counterValue_toNat] at hexec
  exact exists_endsWith hexec (by simp)

/-- Settles O22: the offset is below 16, so all four bytes of the value are input bytes. -/
theorem truncationResult : Obligations.TruncationResult := by
  intro s l o p hl ho hp
  refine ⟨fun h => ?_, fun h => exists_failsWith (exec_htrunc_of_length h)⟩
  have hin : ∀ i, i < 20 → (inputBytes s).getD i 0#8 = ibufByte s i := fun i hi => inputBytes_getD (h.2 ▸ hi)
  have hvalue : (truncatedValue (inputBytes s) o).toNat = p := by
    rw [truncatedValue_toNat, hin _ (by omega), hin _ (by omega), hin _ (by omega), hin _ (by omega), hp]
  obtain ⟨t, hexec, ht⟩ := exec_htrunc_truncatesTo hl h (hin 19 (by omega) ▸ ho)
  rw [hvalue] at ht
  exact ⟨t, hexec, ht.offset, ht.trunc, ht.code, ht.ends⟩

/-- Settles O23: the digits add up to the remainder, which from `L` 10 on is the 31-bit value itself. -/
theorem digitsSpellCode : Obligations.DigitsSpellCode := by
  intro s t l hl h hexec
  obtain ⟨t', hexec', ht⟩ := exec_htrunc_truncatesTo hl h rfl
  cases hexec'.symm.trans hexec
  obtain ⟨-, holen, -, -⟩ := ht.ends
  refine ⟨by rw [holen, decimalDigits_length], fun j hj => ?_, ?_, fun h10 => BitVec.eq_of_toNat_eq ?_⟩
  · rw [ht.obufByte_toNat hj]
    omega
  · rw [ht.code, ← sum_decimal_digits]
    refine congrArg List.sum (List.map_congr_left fun j hj => ?_)
    rw [ht.obufByte_toNat (List.mem_range.mp hj), Nat.add_sub_cancel_left]
  · rw [ht.code, ht.trunc]
    refine Nat.mod_eq_of_lt ((truncatedValue_lt _ _).trans_le ?_)
    calc 2 ^ 31 ≤ 10 ^ 10 := by norm_num
      _ ≤ 10 ^ l := Nat.pow_le_pow_right (by omega) h10

/-- Settles O49: `LOADCTR` ends in `withCounter`, whose counter `CTRSER` serialises. -/
theorem loadedCounterIsSerialised : Obligations.LoadedCounterIsSerialised := by
  intro s v
  refine ⟨succeeded (counterBytes v) (withCounter v s), ?_, rfl, by simp, fun i hi => ?_⟩
  · rw [runScript, runStmt_loadctr, andThen_next, runScript, runStmt_command rfl, exec_ctrser, counterValue_withCounter]
    rfl
  · rw [succeeded_obuf_eq, Memory.get_ofBytes, counterBytes_eq, List.getElem?_map, List.getElem?_range hi,
      Option.map_some]

/-- Settles O50: `LOADB` makes the digest the input, which `HTRUNC` truncates. -/
theorem loadedDigestIsTruncated : Obligations.LoadedDigestIsTruncated := by
  intro s d l o p hc hd hl ho hp
  have hfits : d.length ≤ s.cfg.nIn := by
    obtain ⟨-, hmin, -⟩ := hc
    omega
  have hin : inputBytes (withInput d s) = d := inputBytes_withInput s (by omega)
  have hlen : (withInput d s).ilen.toNat = 20 := by rw [← inputBytes_length, hin, hd]
  have hvalue : (truncatedValue d o).toNat = p := (truncatedValue_toNat d o).trans hp.symm
  obtain ⟨t, hexec, ht⟩ := exec_htrunc_truncatesTo (s := withInput d s) hl ⟨by rw [hlen, ← hd]; exact hfits, hlen⟩
    (hin.symm ▸ ho)
  rw [hin, hvalue] at ht
  obtain ⟨hstatus, holen, hobuf, -⟩ := ht.ends
  refine ⟨t, ?_, hstatus, by rw [holen, decimalDigits_length], ht.code,
    fun j hj => (hobuf j).trans (decimalDigits_getElem? p hj)⟩
  rw [runScript, runStmt_loadb hc hfits, andThen_next, runScript, runStmt_command (Laws.htrunc_wellFormed.mpr hl), hexec]
  rfl

end Sys2Proof.Machine

/-! ## Exceptions: an unusable length, and what a failed command leaves behind

A command that ends with an error has ended in `raised` (`exists_raised_of_commandFrame`), which keeps every operand. So
the next command reads the same operands after it as before it, and `EndAlike.after_raise` says that only the number of
the draw tells the two ends apart. -/

namespace Sys2Proof.Machine

/-! ### An `ILEN` that a command cannot use -/

theorem not_lengthIs_of_not_fits {s : State} (h : ¬ LengthFits s) (n : Nat) : ¬ LengthIs n s := fun hlen => h hlen.1

theorem not_lengthIs_of_ilen_ne {s : State} {n : BitVec 16} (h : s.ilen ≠ n) : ¬ LengthIs n.toNat s :=
  fun hlen => h (BitVec.eq_of_toNat_eq hlen.2)

/-- An `ILEN` above `N_IN` fails every command that reads the input (rule R143). -/
theorem exec_of_not_fits {i : Instr} {s : State} (hi : readsInput i = true) (h : ¬ LengthFits s) :
    exec i s = .next (raised .operandLength s) := by
  cases i with
  | b32encc => exact exec_b32encc_of_length (not_lengthIs_of_not_fits h 5)
  | b32decc => exact exec_b32decc_of_length (not_lengthIs_of_not_fits h 8)
  | b32enc => exact exec_b32enc_of_length h
  | b32dec => exact exec_b32dec_of_length h
  | ctrser => cases hi
  | htrunc l => exact exec_htrunc_of_length (not_lengthIs_of_not_fits h 20)

/-! ### A command that has failed -/

/-- The one way that a command of whatever word ends with an error (rule R146). -/
theorem exists_raised_of_commandFrame {w : Word} {s t : State} (h : commandFrame w s = .next t)
    (hst : t.status ≠ 0x00000001#32) : ∃ e, t = raised e s := by
  obtain ⟨e, he⟩ | ⟨out, s', hok, -⟩ := commandFrame_cases w s
  · cases he.symm.trans h
    exact ⟨e, rfl⟩
  · cases hok.symm.trans h
    exact absurd rfl hst

theorem errorCode_bounds (e : CommandError) : 1 ≤ (errorCode e).toNat ∧ (errorCode e).toNat ≤ 4 := by
  cases e <;> decide

theorem statusError_eq (e : CommandError) :
    statusError e = 0x00000003#32 ||| (BitVec.ofNat 32 (errorCode e).toNat <<< 4) := by
  rw [statusError, BitVec.ofNat_toNat]

/-! ### The command after a failed one -/

/-- A written byte reads the same on every draw. -/
theorem ibufByte_raised {s : State} {i : Nat} (h : (Memory.get s.ibuf i).isSome = true) (e : CommandError) :
    ibufByte (raised e s) i = ibufByte s i := by
  obtain ⟨b, hb⟩ := Option.isSome_iff_exists.mp h
  rw [ibufByte_of_get hb]
  exact ibufByte_of_get hb

theorem sameOperands_raised {s : State} (h : InputWritten s) (e : CommandError) : SameOperands s (raised e s) where
  cfg := rfl
  ilen := rfl
  input := inputBytes_congr rfl fun i hi => ibufByte_raised (h i hi) e
  counter := rfl

/-- Every end of a command overwrites what an error before it has written, so that error shows in the number of the draw
only (rules R71, R146 and R147; log 6). -/
theorem EndAlike.after_raise {s : State} {e : CommandError} {o o' : Host.Outcome State Fault Refusal}
    (h : EndAlike s (raised e s) o o') : ∃ u, o = .next u ∧ o' = .next { u with draws := u.draws + 1 } := by
  cases h with
  | raise e' => exact ⟨raised e' s, rfl, rfl⟩
  | succeed out => exact ⟨succeeded out s, rfl, rfl⟩
  | truncate l o p out => exact ⟨succeeded out (writeTruncation l o p s), rfl, rfl⟩

/-! ### The obligations -/

/-- Settles O15: the length check of each command comes first, whatever the input holds. -/
theorem unusableLengthFails : Obligations.UnusableLengthFails := by
  intro s
  refine ⟨fun i hi hlt => ?_, fun h => ?_, fun h => ?_, fun l h => ?_⟩
  · exact exists_failsWith (exec_of_not_fits hi (Nat.not_le.mpr hlt))
  · exact exists_failsWith (exec_b32encc_of_length (not_lengthIs_of_ilen_ne h))
  · exact exists_failsWith (exec_b32decc_of_length (not_lengthIs_of_ilen_ne h))
  · exact exists_failsWith (exec_htrunc_of_length (not_lengthIs_of_ilen_ne h))

/-- Settles O25: the command has ended in `raised`, whose `STATUS` carries the code of its cause. -/
theorem failedCommandChangesNothingElse : Obligations.FailedCommandChangesNothingElse := by
  intro s t w h hst
  rw [perform_writeCmd] at h
  obtain ⟨e, rfl⟩ := exists_raised_of_commandFrame h hst
  obtain ⟨hmin, hmax⟩ := errorCode_bounds e
  exact ⟨_, hmin, hmax, statusError_eq e ▸ failsWith_raised e s⟩

/-- Settles O27: the failed command keeps the operands of the next one, whose two ends differ in the draw only. -/
theorem failedCommandLeavesNoTrace : Obligations.FailedCommandLeavesNoTrace := by
  intro s t w v h hst hinput
  rw [perform_writeCmd] at h
  obtain ⟨e, rfl⟩ := exists_raised_of_commandFrame h hst
  obtain ⟨u, hu, hu'⟩ := (commandFrame_endAlike (sameOperands_raised hinput e) v).after_raise
  exact ⟨u, _, (perform_writeCmd s v).trans hu, (perform_writeCmd (raised e s) v).trans hu', rfl, rfl, rfl,
    ⟨rfl, rfl, rfl⟩, rfl, rfl, rfl, fun _ => rfl, rfl, rfl, rfl⟩

end Sys2Proof.Machine
